-- ==== Sys2Proof/Word.lean ====
section
/-! DEFINITION. The words of the stepper sequence generator: the widths of spec/10_state.md R20 and the
index ranges of spec/20_memory.md R50. -/

namespace Sys2Proof

/-- One byte: a speed, the flag, a cadence word, a tick count, a wire byte (R20: 8 bits). -/
abbrev Byte := BitVec 8

/-- One command word of the command port, format F-CMD (R75: 13 bits). -/
abbrev CmdWord := BitVec 13

/-- One coil register, format F-COIL (R74: 4 bits, bit `p` is phase `p`). -/
abbrev Pattern := BitVec 4

/-- A motor index 0..5 (R50). No rule can form an index outside this range. -/
abbrev Motor := Fin 6

/-- A phase index 0..3 (R50). -/
abbrev Phase := Fin 4

/-- A frame offset 0..6 (R51). Offset 7 does not exist (R106). -/
abbrev Offset := Fin 7

end Sys2Proof
end

