-- ==== Sys2Proof/Syntax.lean ====
section
/-! DEFINITION. The operations of the opcode table (spec/30_encoding.md R78), one constructor per row, and the
two small types that the wire rows need: what a serial receive can answer, and the handler's three states. -/

namespace Sys2Proof

/-- The operations of R78. The first six are commands of the command port, `conv` is the conversion, the next
five are the scheduler's and sequencer's micro-operations, the last three are the wire messages of the host side. -/
inductive Instr where
  /-- `NOP` (R101). -/
  | nop
  /-- `WRB off, val`, `off` in 0..6 (R102). -/
  | wrb (off : Offset) (val : Byte)
  /-- `WRB 7, val`: the reserved encoding (R106). -/
  | wrb7 (val : Byte)
  /-- `RUN` (R103). -/
  | run
  /-- `FATAL` (R104). -/
  | fatal
  /-- `LOADFRAME v0, ..., v5, f`: seven `WRB`s (R105). -/
  | loadframe (v : Vector Byte 6) (f : Byte)
  /-- `CONV(v)` (R120). -/
  | conv (v : Byte)
  /-- `STOP m` (R165). -/
  | stop (m : Motor)
  /-- `STEPF m`, selected by the cadence word `c` (R163). -/
  | stepf (m : Motor) (c : Byte)
  /-- `STEPR m`, selected by the cadence word `c` (R164). -/
  | stepr (m : Motor) (c : Byte)
  /-- `HOLD m`, selected by the cadence word `c` (R145). -/
  | hold (m : Motor) (c : Byte)
  /-- `PHASE m, p` (R162). -/
  | phase (m : Motor) (p : Phase)
  /-- Wire byte `0xB9` (R182). -/
  | connect
  /-- Wire byte `0xA8` and the payload bytes that follow before a receive answers none, up to 7 (R183, R184). -/
  | motor (payload : List Byte)
  /-- Any other wire byte (R187). -/
  | otherWire (b : Byte)
  deriving DecidableEq, Repr

/-- What one receive of the serial link answers (R6a, R180): a byte (`ok`), nothing within the time limit (`timeout`;
a zero-length `ok` is not told apart from it, R189), or `error`. No rule says what the handler does on `error`; that it
goes on as after a timeout is the model's choice (DESIGN CHOICE, log 29). -/
inductive WireEvent where
  | byte (b : Byte)
  | timeout
  | error
  deriving DecidableEq, Repr

/-- The three states of the protocol handler (R181). In the third, `received` counts the payload bytes that
arrived (R184). -/
inductive HandlerPhase where
  | disconnected
  | connectedIdle
  | awaitingPayload (received : Nat)
  deriving DecidableEq, Repr

end Sys2Proof
end

