-- ==== Sys2Proof/Machine/State.lean ====
section
/-! DEFINITION. The state of the system as plain data: the block (exactly the components of spec/10_state.md R20),
the protocol handler that drives it (spec/44_host_protocol.md R181), and the model's own fields (what the outside
does at each step, the event trace, the converter's output). -/

namespace Sys2Proof.Machine

/-- `STATE` (R26): the block's operating state. -/
inductive OpState where
  | idle
  | cycling
  | halted
  deriving DecidableEq, Repr

/-- The sequencer position `(STATE, T, M, K, W)` (R27), the block's program counter. `M` and `K` have exactly the
range R27 gives them (DEDUCED, log 8). -/
structure Position where
  state : OpState
  t : Byte
  m : Motor
  k : Fin 5
  w : Bool
  deriving DecidableEq, Repr

/-- `(Idle, 0, 0, 0, 0)` (R27). -/
def Position.idle : Position := ⟨.idle, 0, 0, 0, false⟩

/-- `(Halted, 0, 0, 0, 0)` (R27, R202). -/
def Position.halted : Position := ⟨.halted, 0, 0, 0, false⟩

/-- `(Cycling, 1, 0, 0, 0)` (R103). -/
def Position.cycleStart : Position := ⟨.cycling, 1, 0, 0, false⟩

/-- The whole state of the block, and nothing else (R20). `SPEED` and `CAD` hold signed bytes (R21, R24), `COIL`
one 4-bit pattern per motor (R25). `FRAME` is a view of `speed` and `flag` (R23). -/
structure Block where
  speed : Vector Byte 6
  flag : Byte
  cad : Vector Byte 6
  coil : Vector Pattern 6
  pos : Position
  deriving DecidableEq, Repr

/-- The reset values of R32. -/
def Block.reset : Block :=
  { speed := .replicate 6 0, flag := 0, cad := .replicate 6 0, coil := .replicate 6 0, pos := .idle }

/-- `RERUN_POLICY` of the handler (R193). -/
inductive RerunPolicy where
  | always
  | onlyFresh
  deriving DecidableEq, Repr

/-- The host side: the protocol handler's state (R181), its policy parameter (R193), the command words it has
issued and the block has not yet accepted (R100; the first is the one presented on the port; DEDUCED, log 3), what its
receives will answer (log 28), and the bytes it has given to `transmit`, whose status nothing reads (R182; log 10).
`pending` is the last command byte read (DESIGN CHOICE, log 23). -/
structure Handler where
  phase : HandlerPhase
  pending : Option Byte
  policy : RerunPolicy
  cmds : List CmdWord
  rx : List WireEvent
  tx : List Byte
  deriving DecidableEq, Repr

/-- The handler at its start (R181: Disconnected), with the reference policy (R193, log 7), nothing issued, a silent
line and nothing transmitted (DESIGN CHOICE, log 4). -/
def Handler.initial : Handler :=
  { phase := .disconnected, pending := none, policy := .always, cmds := [], rx := [], tx := [] }

/-- What the outside does during one step. `rst`, `cmdValid` and `delayDone` are the input pins of R33 (`cmd` is
the first of the issued words). `giveUp`: the host withdraws the command it presents (R100). `restart`: a new run
of the host begins (R181, R213; DESIGN CHOICE, log 24). -/
structure Input where
  rst : Bool
  cmdValid : Bool
  delayDone : Bool
  giveUp : Bool
  restart : Bool
  deriving DecidableEq, Repr

/-- Nothing special happens: commands are presented as soon as they are issued, and the time base completes the
delay that is requested (R161; DESIGN CHOICE, log 2). -/
def Input.quiet : Input :=
  { rst := false, cmdValid := true, delayDone := true, giveUp := false, restart := false }

/-- An event of the trace (R11, D24): a coil write, a delay completion, a reset. -/
inductive Event where
  | write (m : Motor) (pattern : Pattern)
  | delay
  | reset
  deriving DecidableEq, Repr

/-- The state of the system. `block` is R20's. The rest is not state of the block: `handler` is the host side,
`convOut` is the value the stand-alone conversion last returned (R120 writes no register), `inputs` says what
the outside does at each step (when it is used up, every step is quiet; log 2), and `trace` is the event trace, oldest
event first (log 21). -/
structure State where
  block : Block
  handler : Handler
  convOut : Byte
  inputs : List Input
  trace : List Event
  deriving DecidableEq, Repr

/-- The machine right after reset (R32, R181), with nothing issued, nothing on the wire, a quiet outside and an
empty record (DESIGN CHOICE, log 4). -/
def State.reset : State :=
  { block := .reset, handler := .initial, convOut := 0, inputs := [], trace := [] }

/-- Why the machine would stop with a fault: no reason exists. The block raises no fault: no operation can fail
(R200), and `raise Halt` is a next state (R202). -/
inductive Fault
  deriving DecidableEq, Repr

/-- Why an operation is refused. -/
inductive Refusal where
  /-- Raised by the dispatch for an operation that has no meaning yet. Safe: nothing can be concluded of it. -/
  | notModelled (mnemonic : String)
  /-- Raised by the reserved encoding `WRB 7` (R106: "a model gives it no meaning (it refuses it)"). Safe: "no
  false claim can follow, since a claim about a host that issues it is simply not provable". -/
  | reservedWrb7
  deriving DecidableEq, Repr

end Sys2Proof.Machine
end

