-- ==== Sys2Proof/Machine/Flags.lean ====
section
/-! DEFINITION. The block has no condition codes (spec/10_state.md R29). What it has are the status outputs of R30
and the coil bus of R33, all functions of the state. -/

namespace Sys2Proof.Machine

/-- `cmd_ready = (STATE = Idle)` (R30). -/
def Block.cmdReady (b : Block) : Bool := b.pos.state == .idle

/-- `busy = (STATE = Cycling)` (R30). -/
def Block.busy (b : Block) : Bool := b.pos.state == .cycling

/-- `halted = (STATE = Halted)` (R30). -/
def Block.halted (b : Block) : Bool := b.pos.state == .halted

/-- `delay_req = W` (R30). -/
def Block.delayReq (b : Block) : Bool := b.pos.w

/-- The 24 coil wires, `coil[4*m + p] = COIL[m][p]` (R33). -/
def Block.coilBus (b : Block) : BitVec 24 :=
  ((((b.coil[5] ++ b.coil[4]) ++ b.coil[3]) ++ b.coil[2]) ++ b.coil[1]) ++ b.coil[0]

end Sys2Proof.Machine
end

