-- ==== Sys2Proof/Config.lean ====
section
/-! DEFINITION. The implementation parameters of spec/00_scope.md R8. They are constants of one instance: no
command reads or writes them. `RERUN_POLICY` (R193) is not here: it is left open by the spec and stands in the
handler's part of State, so that a statement about every state holds under both policies. -/

namespace Sys2Proof

/-- `MAX_SPEED` (R8: a parameter; fixed at the spec's value, log 5). -/
def Config.maxSpeed : Nat := 100

/-- `MAX_CYCLES` (R8, 90_conflicts.md C5): the ticks of one cycle (a parameter; fixed at the spec's default, log 5). -/
def Config.maxCycles : Nat := 20

/-- One less than `PHASE_DELAY_MS`: an open parameter, no value in the spec (R8, 92_eei_decisions.md D17). -/
opaque Config.phaseDelayPred : Nat

/-- `PHASE_DELAY_MS`: a positive number of milliseconds, otherwise free (D17). No step depends on it; only the
durations of R244 do. -/
def Config.phaseDelayMs : Nat := Config.phaseDelayPred + 1

/-- `CMD_TIMEOUT_MS` of the protocol handler: open, no value in the spec (R8, R189, D21). The steps carry no
time, so nothing reads it. -/
opaque Config.cmdTimeoutMs : Nat

/-- `PAYLOAD_TIMEOUT_MS` of the protocol handler: open, no value in the spec (R8, R189, D21). The steps carry no
time, so nothing reads it. -/
opaque Config.payloadTimeoutMs : Nat

end Sys2Proof
end

