-- ==== Sys2Proof/WellFormed.lean ====
section
/-! DEFINITION. Which operations the formats of spec/30_encoding.md can spell. Indices (motor, phase, offset)
are in range by their types; what is left is the class of a cadence word (R73) and the length of a payload (R76). -/

namespace Sys2Proof

/-- The cadence word `c` of a `STEPF` is positive, of a `STEPR` negative, of a `HOLD` not zero (R73, R78), and a
`MOTOR` message has at most seven payload bytes (R76, R184). -/
def Instr.wellFormed : Instr → Bool
  | .nop => true
  | .wrb _ _ => true
  | .wrb7 _ => true
  | .run => true
  | .fatal => true
  | .loadframe _ _ => true
  | .conv _ => true
  | .stop _ => true
  | .stepf _ c => !c.msb && c != 0
  | .stepr _ c => c.msb
  | .hold _ c => c != 0
  | .phase _ _ => true
  | .connect => true
  | .motor payload => decide (payload.length ≤ 7)
  | .otherWire _ => true

end Sys2Proof
end

