-- ==== Sys2Proof/Decode.lean ====
section
/-! DEFINITION. The six formats of spec/30_encoding.md: the decoder (total, rejecting with `none`) and the encoder,
with the helpers of spec/00_scope.md R12 that both use. -/

namespace Sys2Proof

/-! ### Notation of R12 -/

/-- `sext_8(b)`: the integer a byte stands for, two's complement (R12; PRESUMED, the spec's G1, log 9). -/
def sext8 (b : Byte) : Int := if b.toNat < 128 then (b.toNat : Int) else (b.toNat : Int) - 256

/-- `abs(c)` of a cadence word, without wrap-around: the period in ticks (R73, R77). -/
def period (c : Byte) : Nat := (sext8 c).natAbs

/-- `onehot(p)` (R12, R74). -/
def onehot (p : Phase) : Pattern := 1#4 <<< p.val

/-- The wire byte of `CONNECT` (R76). -/
def connectByte : Byte := 0xB9

/-- The wire byte of `MOTOR` (R76). -/
def motorByte : Byte := 0xA8

/-- The bytes of a `MOTOR` payload: six speeds and the flag (R72). -/
def payloadLength : Nat := 7

/-! ### Formats -/

/-- A value in one of the formats of R70. -/
inductive Encoded where
  /-- F-CMD (R75). -/
  | cmd (w : CmdWord)
  /-- Seven F-CMD words, in the order presented (R105). -/
  | cmds (ws : List CmdWord)
  /-- F-SPEED (R71). -/
  | speed (v : Byte)
  /-- F-CAD (R73). -/
  | cad (c : Byte)
  /-- F-COIL (R74). -/
  | coil (pattern : Pattern)
  /-- F-WIRE (R76): what the receives of one message answered, in order. -/
  | wire (events : List WireEvent)
  deriving DecidableEq, Repr

/-- What decoding reads besides the encoded value: the position's motor and tick (R143), and the handler's state
(R80: "the handshake state decides whether 0xA8 is looked at at all"). -/
structure DecodeCtx where
  motor : Motor
  tick : Byte
  handler : HandlerPhase
  deriving DecidableEq, Repr

/-! ### Decoder -/

/-- The operation code, bits 12:11 of a command word (R75). -/
def cmdOp (w : CmdWord) : BitVec 2 := w.extractLsb' 11 2

/-- The frame offset, bits 10:8 of a command word (R75). -/
def cmdOff (w : CmdWord) : BitVec 3 := w.extractLsb' 8 3

/-- The byte to write, bits 7:0 of a command word (R75). -/
def cmdVal (w : CmdWord) : Byte := w.extractLsb' 0 8

/-- F-CMD (R75). All four `op` values are defined; `WRB` with offset 7 is the one reserved encoding (R79a, R106). -/
def decodeCmd (w : CmdWord) : Instr :=
  if cmdOp w = 0 then .nop
  else if cmdOp w = 1 then
    if h : (cmdOff w).toNat < 7 then .wrb ⟨(cmdOff w).toNat, h⟩ (cmdVal w) else .wrb7 (cmdVal w)
  else if cmdOp w = 2 then .run
  else .fatal

/-- The scheduler's selection for motor `m` on tick `t` from the cadence word `c`, tested in the order of R143. -/
def decodeCad (m : Motor) (t : Byte) (c : Byte) : Instr :=
  if sext8 c = 0 then .stop m
  else if t.toNat % period c = 0 then
    if 0 < sext8 c then .stepf m c else .stepr m c
  else .hold m c

/-- F-COIL (R74): the pattern of a `PHASE` write of motor `m`. The all-off pattern is `STOP`'s and the other eleven
never occur (R79d): none of them is a `PHASE`. -/
def decodeCoil (m : Motor) (pattern : Pattern) : Option Instr :=
  if pattern = onehot 0 then some (.phase m 0)
  else if pattern = onehot 1 then some (.phase m 1)
  else if pattern = onehot 2 then some (.phase m 2)
  else if pattern = onehot 3 then some (.phase m 3)
  else none

/-- The seven words of a `LOADFRAME` (R105): a `WRB` to each offset in ascending order, and nothing after. -/
def decodeFrame : List CmdWord → Option Instr
  | [a, b, c, d, e, f, g] =>
    match decodeCmd a, decodeCmd b, decodeCmd c, decodeCmd d, decodeCmd e, decodeCmd f, decodeCmd g with
    | .wrb 0 v0, .wrb 1 v1, .wrb 2 v2, .wrb 3 v3, .wrb 4 v4, .wrb 5 v5, .wrb 6 fl =>
      some (.loadframe #v[v0, v1, v2, v3, v4, v5] fl)
    | _, _, _, _, _, _, _ => none
  | _ => none

/-- The payload of a `MOTOR` message: at most `room` bytes (R76, R184), and nothing but bytes. -/
def decodePayload : Nat → List WireEvent → Option (List Byte)
  | _, [] => some []
  | room + 1, .byte b :: rest => (decodePayload room rest).map (b :: ·)
  | _, _ => none

/-- F-WIRE (R76), by the handler's state: only `0xB9` means anything before the handshake (R182), only `0xA8`
after it (R183, R187); while a payload is awaited no message begins. -/
def decodeWire : HandlerPhase → List WireEvent → Option Instr
  | .disconnected, [.byte b] => some (if b = connectByte then .connect else .otherWire b)
  | .connectedIdle, .byte b :: rest =>
    if b = motorByte then (decodePayload payloadLength rest).map .motor
    else if rest = [] then some (.otherWire b) else none
  | _, _ => none

/-- The decoder: total on every encoded value, in every context. -/
def decode (ctx : DecodeCtx) : Encoded → Option Instr
  | .cmd w => some (decodeCmd w)
  | .cmds ws => decodeFrame ws
  | .speed v => some (.conv v)
  | .cad c => some (decodeCad ctx.motor ctx.tick c)
  | .coil pattern => decodeCoil ctx.motor pattern
  | .wire events => decodeWire ctx.handler events

/-! ### Encoder -/

/-- `{op, off, val}` (R75). -/
def cmdWord (op : BitVec 2) (off : BitVec 3) (val : Byte) : CmdWord := (op ++ off) ++ val

/-- `WRB off, val` = `0x0800 + 0x100*off + val` (R81). -/
def wrbWord (off : Offset) (val : Byte) : CmdWord := cmdWord 1 (BitVec.ofNat 3 off.val) val

/-- `RUN` = `0x1000` (R81). -/
def runWord : CmdWord := cmdWord 2 0 0

/-- The seven words of `LOADFRAME v0..v5, f` (R105). -/
def frameWords (v : Vector Byte 6) (f : Byte) : List CmdWord :=
  [wrbWord 0 v[0], wrbWord 1 v[1], wrbWord 2 v[2], wrbWord 3 v[3], wrbWord 4 v[4], wrbWord 5 v[5], wrbWord 6 f]

/-- A payload on the wire: its bytes in order (R72, R76). What ends a short one is no part of the message. -/
def payloadEvents (payload : List Byte) : List WireEvent := payload.map .byte

/-- The encoder: each operation in the format R78 selects it by. Ignored fields are written as 0 (R81). -/
def encode : Instr → Encoded
  | .nop => .cmd (cmdWord 0 0 0)
  | .wrb off val => .cmd (wrbWord off val)
  | .wrb7 val => .cmd (cmdWord 1 7 val)
  | .run => .cmd runWord
  | .fatal => .cmd (cmdWord 3 0 0)
  | .loadframe v f => .cmds (frameWords v f)
  | .conv v => .speed v
  | .stop _ => .cad 0
  | .stepf _ c => .cad c
  | .stepr _ c => .cad c
  | .hold _ c => .cad c
  | .phase _ p => .coil (onehot p)
  | .connect => .wire [.byte connectByte]
  | .motor payload => .wire (.byte motorByte :: payloadEvents payload)
  | .otherWire b => .wire [.byte b]

/-- The contexts in which an operation is the one its encoding selects (the "selected by" column of R78): a
micro-operation belongs to the position's motor and its tick condition (R143), a wire message to a state of the
handler (R182, R183, R187). -/
def Instr.selectedIn (ctx : DecodeCtx) : Instr → Bool
  | .nop | .wrb _ _ | .wrb7 _ | .run | .fatal | .loadframe _ _ | .conv _ => true
  | .stop m => m == ctx.motor
  | .stepf m c => m == ctx.motor && ctx.tick.toNat % period c == 0
  | .stepr m c => m == ctx.motor && ctx.tick.toNat % period c == 0
  | .hold m c => m == ctx.motor && ctx.tick.toNat % period c != 0
  | .phase m _ => m == ctx.motor
  | .connect => ctx.handler == .disconnected
  | .motor _ => ctx.handler == .connectedIdle
  | .otherWire b =>
    (ctx.handler == .disconnected && b != connectByte) || (ctx.handler == .connectedIdle && b != motorByte)

/-! ### The opcode table's words -/

/-- The first tick on which a cadence `c` is due, as a tick count: 1 for a stopped motor, else its period. -/
def dueTick (c : Byte) : Byte := if c = 0 then 1 else BitVec.ofNat 8 (period c)

/-- Byte `i` of a table word. -/
def tableByte (w i : Nat) : Byte := BitVec.ofNat 8 (w / 256 ^ i)

/-- Command word `i` of a table word: the port's words are laid out in 16 bits each. -/
def tableCmd (w i : Nat) : CmdWord := BitVec.ofNat 13 (w / 65536 ^ i)

/-- The `MOTOR` message whose first byte is byte 0 of `w`. -/
def tableMotorEvents (w : Nat) : List WireEvent :=
  [.byte (tableByte w 0), .byte (tableByte w 1), .byte (tableByte w 2), .byte (tableByte w 3),
   .byte (tableByte w 4), .byte (tableByte w 5), .byte (tableByte w 6), .byte (tableByte w 7)]

/-- The format and context of a table word of `nbits` bits. Three formats of the table have 8 bits. The two bytes of
F-WIRE are read as wire messages (as cadences they are -71 and -88, which no converter produces, R24), every other
byte as a cadence of motor 0 on its due tick (DESIGN CHOICE, log 18). A `MOTOR` byte is followed by the payload bytes
of `w`, zero where `nbits` ends before them. -/
def tableEncoded (nbits w : Nat) : Option (DecodeCtx × Encoded) :=
  if nbits ≤ 8 ∨ nbits = 64 then
    if tableByte w 0 = motorByte then some (⟨0, 0, .connectedIdle⟩, .wire (tableMotorEvents w))
    else if tableByte w 0 = connectByte then some (⟨0, 0, .disconnected⟩, .wire [.byte connectByte])
    else some (⟨0, dueTick (tableByte w 0), .disconnected⟩, .cad (tableByte w 0))
  else if nbits ≤ 16 then
    if w < 2 ^ 13 then some (⟨0, 0, .disconnected⟩, .cmd (BitVec.ofNat 13 w)) else none
  else if nbits = 112 then
    some (⟨0, 0, .disconnected⟩,
      .cmds [tableCmd w 0, tableCmd w 1, tableCmd w 2, tableCmd w 3, tableCmd w 4, tableCmd w 5, tableCmd w 6])
  else none

/-- The instruction the decoder reads from an opcode-table word. -/
def decodeTableWord (nbits w : Nat) : Option Instr :=
  match tableEncoded nbits w with
  | some (ctx, e) => decode ctx e
  | none => none

end Sys2Proof
end

