-- ==== Sys2Proof/Machine/Operands.lean ====
section
/-! DEFINITION. How each operand is obtained (spec/30_encoding.md R77): the speed of a motor, the cadence and
direction of a motor, the phase of the k-th write of a step, the frame space (spec/20_memory.md R55). -/

namespace Sys2Proof.Machine

/-- The speed of motor `m` as a signed integer: `sext_8(FRAME[m])` (R77). -/
def State.speedOf (s : State) (m : Motor) : Int := sext8 s.block.speed[m]

/-- The cadence of motor `m` as a signed integer: its sign is the direction, its magnitude the period (R73, R77). -/
def State.cadenceOf (s : State) (m : Motor) : Int := sext8 s.block.cad[m]

/-- The phase of the `k`-th write of a step, counted from 0: `k` forward, `3 - k` in reverse (R77, R163, R164). -/
def stepPhase (forward : Bool) (k : Phase) : Phase := if forward then k else k.rev

/-- `MemRead(off, 1)` (R55): `FRAME[off]`, the byte view of R23 (no separate storage, log 22). -/
def State.memRead (s : State) (off : Offset) : Byte :=
  if h : off.val < 6 then s.block.speed[off.val] else s.block.flag

/-- `MemWrite(off, 1, v)` (R55): `SPEED[off] <- v` for `off` in 0..5, `FLAG <- v` for `off` = 6. -/
def State.memWrite (s : State) (off : Offset) (v : Byte) : State :=
  if h : off.val < 6 then { s with block.speed := s.block.speed.set off.val v h } else { s with block.flag := v }

/-- What decoding reads of a state: the motor and tick of the position, and the handler's state. -/
def State.decodeCtx (s : State) : DecodeCtx :=
  { motor := s.block.pos.m, tick := s.block.pos.t, handler := s.handler.phase }

end Sys2Proof.Machine
end

