-- ==== Sys2Proof/Machine/Ops.lean ====
section
/-! DEFINITION. The shared operations over the registers: command acceptance (spec/40_commands.md R100), the
advance of the position (spec/42_scheduler.md R146), the coil writes (spec/43_sequencer.md R162, R165), the delay
completion (R161), the fault hook (spec/60_exceptions.md R202) and reset (spec/70_reset_and_hazards.md R230). -/

namespace Sys2Proof.Machine

/-! ### Register writes -/

/-- `pos <- p` (R12). -/
def State.setPos (s : State) (p : Position) : State := { s with block.pos := p }

/-- `COIL[m] <- pattern`: one 4-bit write (R160; no transients, log 20). -/
def State.setCoil (s : State) (m : Motor) (pattern : Pattern) : State :=
  { s with block.coil := s.block.coil.set m.val pattern m.isLt }

/-- All six cadences at once: the table is never partially updated (R24). -/
def State.setCad (s : State) (cad : Vector Byte 6) : State := { s with block.cad := cad }

/-- `emit e`: the event is appended to the trace (R12). -/
def State.emit (s : State) (e : Event) : State := { s with trace := s.trace ++ [e] }

/-- The handler's part of the state is replaced. -/
def State.setHandler (s : State) (h : Handler) : State := { s with handler := h }

/-- The value the stand-alone conversion returns. -/
def State.setConvOut (s : State) (v : Byte) : State := { s with convOut := v }

/-- The rest of the outside's schedule. -/
def State.setInputs (s : State) (inputs : List Input) : State := { s with inputs := inputs }

/-! ### Command acceptance -/

/-- A command takes effect exactly when the block is Idle: acceptance and the whole effect are one step. In any
other state it is not stored, not queued and not partly executed (R100; log 25). -/
def State.accept (s : State) (effect : State → State) : State :=
  if s.block.pos.state = .idle then effect s else s

/-! ### The position -/

/-- `advance` (R146, R147): the next motor, or motor 0 of the next tick, or Idle after the last. -/
def Position.advance (p : Position) : Position :=
  if p.m.val < 5 then { p with m := p.m + 1, k := 0, w := false }
  else if p.t.toNat < Config.maxCycles then { p with t := p.t + 1, m := 0, k := 0, w := false }
  else .idle

/-- The state after motor `M` on tick `T` has been dealt with (R146). -/
def State.advance (s : State) : State := s.setPos s.block.pos.advance

/-- Motor `m` is to be evaluated: position `(Cycling, T, m, 0, 0)` (R27, R143). -/
def State.evaluating (s : State) (m : Motor) : Bool :=
  s.block.pos.state == .cycling && s.block.pos.m == m && s.block.pos.k == 0 && !s.block.pos.w

/-- A phase write of motor `m` is next: `(Cycling, T, m, k, 0)` with fewer than four writes made (R27, R163). -/
def State.mayWritePhase (s : State) (m : Motor) : Bool :=
  s.block.pos.state == .cycling && s.block.pos.m == m && s.block.pos.k.val < 4 && !s.block.pos.w

/-- A micro-operation is carried out only where the sequencer has it as its next step; elsewhere no agent
performs it and nothing changes (DESIGN CHOICE, log 16). -/
def State.when (s : State) (enabled : Bool) (effect : State → State) : State :=
  if enabled then effect s else s

/-! ### The sequencer -/

/-- `PHASE m, p` (R162): one coil write, one event, one more phase made, and the wait for a delay. -/
def State.writePhase (s : State) (m : Motor) (p : Phase) : State :=
  ((s.setCoil m (onehot p)).emit (.write m (onehot p))).setPos
    { s.block.pos with k := s.block.pos.k + 1, w := true }

/-- `STOP m` (R165): one coil write, one event, no wait, and the advance. -/
def State.writeStop (s : State) (m : Motor) : State :=
  ((s.setCoil m 0).emit (.write m 0)).advance

/-- The delay completion of the time base (R161), enabled when `STATE = Cycling` and `W = 1`: the fourth one ends
the step. -/
def State.completeDelay (s : State) : State :=
  if s.block.pos.k = 4 then (s.emit .delay).advance
  else (s.emit .delay).setPos { s.block.pos with w := false }

/-! ### The fault hook and reset -/

/-- `raise Halt` (R202): the one exception. Nothing is saved, no vector is fetched; the position becomes
`(Halted, 0, 0, 0, 0)` and nothing else changes. There is no return from it (R203). -/
def State.raiseHalt (s : State) : State := s.setPos .halted

/-- `rst` (R230, R231): every register of the block at its value of R32, from any state; recorded as `RESET` in
the trace. The host is another agent and is not touched (R11; DEDUCED, log 19). -/
def State.resetBlock (s : State) : State := { s.emit .reset with block := .reset }

end Sys2Proof.Machine
end

