-- ==== Sys2Proof/Machine/HostProtocol.lean ====
section
/-! DEFINITION. The protocol handler (spec/44_host_protocol.md), the host that the source gives the block. It acts
on the block only through the command words it issues (R186), which the block accepts one by one under R100. -/

namespace Sys2Proof.Machine

/-- One `"ACK"` message: the three ASCII characters A, C, K, no terminator (R182, D26; PRESUMED, the spec's G2, log 10). -/
def ackBytes : List Byte := [0x41, 0x43, 0x4B]

/-- The handler is in one of its receives, or free to begin one: it has no command left to be accepted, and the block
is Idle. A cycle blocks the loop ("wait until the block is Idle again", R185), and a block that was halted by the
bring-up fault "halts before entering the serial loop" (R190; DEDUCED, log 15). -/
def State.receiving (s : State) : Bool := s.handler.cmds.isEmpty && s.block.pos.state == .idle

/-- The handler issues command words, to be presented after those it has issued already (R100). -/
def Handler.issue (h : Handler) (words : List CmdWord) : Handler := { h with cmds := h.cmds ++ words }

/-- The end of a loop iteration (R185): back to Connected-Idle, and `RUN` is issued on every iteration, or under
`ONLY_FRESH` only if a complete MOTOR message was received (R193). -/
def Handler.endIteration (h : Handler) (complete : Bool) : Handler :=
  if h.policy = .always ∨ complete then { h with phase := .connectedIdle }.issue [runWord]
  else { h with phase := .connectedIdle }

/-- The handshake (R182): exactly three acknowledgements, then Connected-Idle. No block command is issued. -/
def Handler.handshake (h : Handler) : Handler :=
  { h with
    phase := .connectedIdle
    tx := h.tx ++ (ackBytes ++ ackBytes ++ ackBytes) }

/-- The command-id byte of the MOTOR message (R183): Connected-Awaiting-Payload, with no payload byte received yet. -/
def Handler.beginPayload (h : Handler) : Handler :=
  { h with phase := .awaitingPayload 0, pending := some motorByte }

/-- The `j`-th payload byte arrives (R184): `WRB j, b` is issued, and one more byte is received. -/
def Handler.receivePayloadByte (h : Handler) (j : Offset) (b : Byte) : Handler :=
  { h with phase := .awaitingPayload (j.val + 1) }.issue [wrbWord j b]

/-- One byte read by the handler where it waits for a connect or command byte. Disconnected: `0xB9` is the
handshake, anything else is discarded (R182). Connected-Idle: `0xA8` begins a payload, anything else is a no-op
for that iteration, which still ends with its `RUN` (R183, R187). -/
def Handler.receiveByte (h : Handler) (b : Byte) : Handler :=
  match h.phase with
  | .disconnected => if b = connectByte then h.handshake else h
  | .connectedIdle =>
    if b = motorByte then h.beginPayload else { h with pending := some b }.endIteration false
  | .awaitingPayload _ => h

/-- `CONNECT` (R182; after the handshake R187): the byte `0xB9` read by the handler. Named while the handler is not
free, this and the next two change nothing (DESIGN CHOICE, log 27). -/
def execConnect (s : State) : Host.Outcome State Fault Refusal :=
  .next (s.when s.receiving fun s => s.setHandler (s.handler.receiveByte connectByte))

/-- `MOTOR` (R183, R184): its command-id byte is read, and its payload bytes are what the line answers next, each to be
received in a step of its own (`Handler.loopStep`). Before the handshake the command-id byte is ignored, and the bytes
after it are read one at a time as any others (R182; DEDUCED, log 14). -/
def Handler.receiveMotor (h : Handler) (payload : List Byte) : Handler :=
  match h.phase with
  | .disconnected | .connectedIdle => { h.receiveByte motorByte with rx := payloadEvents payload ++ h.rx }
  | .awaitingPayload _ => h

/-- `MOTOR` (R183). -/
def execMotor (payload : List Byte) (s : State) : Host.Outcome State Fault Refusal :=
  .next (s.when s.receiving fun s => s.setHandler (s.handler.receiveMotor payload))

/-- Any other wire byte (R182, R187). -/
def execOtherWire (b : Byte) (s : State) : Host.Outcome State Fault Refusal :=
  .next (s.when s.receiving fun s => s.setHandler (s.handler.receiveByte b))

/-! ### The handler's other steps -/

/-- The bytes that stand next on the line, at most `room`, and what stands after them. -/
def takePayload : Nat → List WireEvent → List Byte × List WireEvent
  | room + 1, .byte b :: rest => (b :: (takePayload room rest).1, (takePayload room rest).2)
  | _, rest => ([], rest)

/-- The next wire message and what stands on the line after it (R80): the length is told from the first byte alone.
The payload of a `MOTOR` is looked at here as its operand and received later, byte by byte: exec of `MOTOR` leaves it
on the line (DEDUCED, log 14). `none` where no message begins: the line is silent, the receive times out or fails, or
a payload is awaited. -/
def wireMessage : HandlerPhase → List WireEvent → Option (List WireEvent × List WireEvent)
  | .disconnected, .byte b :: rest => some ([.byte b], rest)
  | .connectedIdle, .byte b :: rest =>
    if b = motorByte then
      some (.byte b :: payloadEvents (takePayload payloadLength rest).1, (takePayload payloadLength rest).2)
    else some ([.byte b], rest)
  | _, _ => none

/-- A receive in Connected-Awaiting-Payload (R184): the next payload byte is written, while fewer than seven have
arrived; the seventh, a timeout, an error of the link (DESIGN CHOICE, log 29) or silence (DESIGN CHOICE, log 28) ends
the payload, with an unconditional return (R185). -/
def Handler.receivePayload (h : Handler) (received : Nat) : Handler :=
  if room : received < payloadLength then
    match h.rx with
    | .byte b :: rest => { h with rx := rest }.receivePayloadByte ⟨received, room⟩ b
    | _ => { h with rx := h.rx.tail }.endIteration false
  else h.endIteration (h.pending == some motorByte && received == payloadLength)

/-- The handler's step when no message begins. Disconnected: it waits, with no time limit (R182). Connected-Idle: the
receive times out, or fails (DESIGN CHOICE, log 29), nothing is pending (DESIGN CHOICE, log 23), and the iteration ends
like any other (R185, R189). Connected-Awaiting-Payload: the next receive of the payload (R184). A used-up wire is
silence (DESIGN CHOICE, log 28). Before the handshake a timeout (log 28) or an error (log 29) is passed over. -/
def Handler.loopStep (h : Handler) : Handler :=
  match h.phase with
  | .disconnected => { h with rx := h.rx.tail }
  | .connectedIdle => { h with pending := none, rx := h.rx.tail }.endIteration false
  | .awaitingPayload received => h.receivePayload received

/-- The host gives up the command it presents (R100): it has had no effect (log 24). -/
def State.giveUp (s : State) : State := s.setHandler { s.handler with cmds := s.handler.cmds.tail }

/-- A new run of the host (R181: it starts in Disconnected). What it had issued is gone; the wire, the policy
and the record of what was sent stay (DESIGN CHOICE, log 24). -/
def State.restartHost (s : State) : State :=
  s.setHandler { s.handler with phase := .disconnected, pending := none, cmds := [] }

end Sys2Proof.Machine
end

