-- ==== Sys2Proof/Machine/Agents.lean ====
section
/-! DEFINITION. Which agent acts next (spec/00_scope.md R11, spec/60_exceptions.md R204, R205): the outside (reset,
a host that restarts or gives up), an operation of the opcode table that some agent has as its next step, or a step
that is no operation of the table (a delay completion, a receive of the handler that begins no message, waiting). The order among
the agents is DEDUCED (log 1). -/

namespace Sys2Proof.Machine

/-- What the outside does in this step: the schedule's first entry, or nothing special when it is used up. -/
def State.input (s : State) : Input := s.inputs.headD .quiet

/-- The state with this step's entry of the schedule taken. -/
def State.takeInput (s : State) : State := s.setInputs s.inputs.tail

/-- An event of the outside that is the whole step. Reset overrides everything (R205). -/
def State.outside (inp : Input) (s : State) : Option State :=
  if inp.rst then some s.resetBlock
  else if inp.restart then some s.restartHost
  else if inp.giveUp then some s.giveUp
  else none

/-- The phase that the next write of the step in progress energizes: the `K`-th, in the direction of the
cadence's sign (R163, R164). With a cadence of 0, which no step in progress has (the invariant), the spec gives no
direction, and the model takes the reverse one (DESIGN CHOICE, log 17). -/
def State.nextPhase (s : State) : Phase :=
  stepPhase (decide (0 < s.cadenceOf s.block.pos.m)) (Fin.ofNat 4 s.block.pos.k.val)

/-- The encoded operation that some agent has as its next step, and the state from which it is taken. Cycling: the
cadence word of motor `M` at an evaluation (R143), the pattern of the next phase write inside a step (R163),
nothing while a delay is in flight (R161). Idle: the command word presented (R100), or, when no command is
outstanding, the next wire message (R182, R183). Halted: no command is accepted (R202) and no loop runs (R190). -/
def State.fetch (inp : Input) (s : State) : Option (Encoded × State) :=
  match s.block.pos.state, s.handler.cmds with
  | .cycling, _ =>
    if s.block.pos.w then none
    else if s.block.pos.k = 0 then some (.cad s.block.cad[s.block.pos.m], s)
    else if s.block.pos.k.val < 4 then some (.coil (onehot s.nextPhase), s)
    else none
  | .idle, word :: rest =>
    if inp.cmdValid then some (.cmd word, s.setHandler { s.handler with cmds := rest }) else none
  | .halted, _ => none
  | .idle, [] =>
    match wireMessage s.handler.phase s.handler.rx with
    | some (events, rest) => some (.wire events, s.setHandler { s.handler with rx := rest })
    | none => none

/-- The step when no operation of the table is next: the time base completes the delay in flight if it reports so
(R161), the handler makes a step of its own when it is free to (R185), or all wait (also at the unreachable
`(Cycling, T, M, 4, 0)`, log 17). -/
def State.otherStep (inp : Input) (s : State) : State :=
  match s.block.pos.state with
  | .cycling => if s.block.pos.w && inp.delayDone then s.completeDelay else s
  | .idle => if s.handler.cmds.isEmpty then s.setHandler s.handler.loopStep else s
  | .halted => s

/-- The handler can still come to issue a command from what it has: a loop iteration under way, `RUN` on every iteration
(R185, R193), or the byte on its wire that begins a handshake (R182) or a payload (R183). -/
def Handler.mayIssue (h : Handler) : Bool :=
  match h.phase with
  | .disconnected => decide (WireEvent.byte connectByte ∈ h.rx)
  | .connectedIdle => h.policy == .always || decide (WireEvent.byte motorByte ∈ h.rx)
  | .awaitingPayload _ => true

/-- "the host has no further command" (R213): none is issued, and the handler issues none from what it has, or its loop
does not run (Halted, R190). What this means of a handler is DEDUCED (log 30). -/
def State.noFurtherCommand (s : State) : Bool :=
  s.handler.cmds.isEmpty && (s.block.pos.state == .halted || !s.handler.mayIssue)

/-- The run has ended (R213): the host has no further command and the block is in Idle or Halted with `W = 0`. -/
def State.runEnded (s : State) : Bool :=
  s.noFurtherCommand && (s.block.pos.state == .idle || s.block.pos.state == .halted) && !s.block.pos.w

/-- The state in which the very next step runs the encoded operation in the given context: a quiet outside, and a
command presented in Idle; a cadence word at the evaluation of the context's motor on the context's tick; a wire
message before a handler in the context's state that has nothing outstanding. -/
def State.place (s : State) (ctx : DecodeCtx) (e : Encoded) : State :=
  let s := s.setInputs (.quiet :: s.inputs)
  match e with
  | .cmd word => (s.setPos .idle).setHandler { s.handler with cmds := word :: s.handler.cmds }
  | .cmds words => (s.setPos .idle).setHandler { s.handler with cmds := words ++ s.handler.cmds }
  | .cad c =>
    (s.setCad (s.block.cad.set ctx.motor.val c ctx.motor.isLt)).setPos ⟨.cycling, ctx.tick, ctx.motor, 0, false⟩
  | .wire events =>
    (s.setPos .idle).setHandler
      { s.handler with phase := ctx.handler, cmds := [], rx := events ++ s.handler.rx }
  | .speed _ => s
  | .coil _ => s

end Sys2Proof.Machine
end

