-- ==== Sys2Proof/Machine/Converter.lean ====
section
/-! DEFINITION. The speed-to-cadence converter (spec/41_converter.md): the function of R120, the full recompute of
R125, and the stand-alone `CONV`. -/

namespace Sys2Proof.Machine

/-- The algorithm of R120 over mathematical integers, for any parameter values: the quotient truncates toward
zero (`QUOT_ROUND = TRUNC`, R126). -/
def convertWith (maxSpeed maxCycles v : Int) : Int :=
  if v = 0 then 0
  else
    let a : Int := v.natAbs
    let q : Int := (a - 1).tdiv (maxSpeed - 1)
    let mag : Int := (maxCycles - 1) * (1 - q) + 1
    mag * v.sign

/-- `CONV(v)` with the block's parameters (R8), as a cadence word: the result fits `CAD_W = 8` signed bits (R121). -/
def convert (v : Byte) : Byte :=
  BitVec.ofInt 8 (convertWith Config.maxSpeed Config.maxCycles (sext8 v))

/-- `for m in 0..5: CAD[m] <- CONV(SPEED[m])` (R125), in index order. -/
def convertAll (speed : Vector Byte 6) : Vector Byte 6 :=
  #v[convert speed[0], convert speed[1], convert speed[2], convert speed[3], convert speed[4], convert speed[5]]

/-- `CONV(v)` by itself (R120): it returns the cadence and writes no register. The value it returns stands in `convOut`
(DESIGN CHOICE, log 12). -/
def execConv (v : Byte) (s : State) : Host.Outcome State Fault Refusal :=
  .next (s.setConvOut (convert v))

end Sys2Proof.Machine
end

