-- ==== Sys2Proof/Machine/Commands.lean ====
section
/-! DEFINITION. The commands of the command port (spec/40_commands.md R101 to R106). -/

namespace Sys2Proof.Machine

/-- `NOP` (R101): in Idle it changes nothing. -/
def execNop (s : State) : Host.Outcome State Fault Refusal := .next (s.accept id)

/-- One accepted `WRB` (R102): `MemWrite(off, 1, val)`. -/
def State.wrb (s : State) (off : Offset) (val : Byte) : State := s.accept fun s => s.memWrite off val

/-- `WRB off, val` (R102). -/
def execWrb (off : Offset) (val : Byte) (s : State) : Host.Outcome State Fault Refusal :=
  .next (s.wrb off val)

/-- `WRB 7, val` (R106): "a host must never present it, and a model gives it no meaning (it *refuses* it)" (safe, log 11). -/
def execWrb7 (_val : Byte) (_s : State) : Host.Outcome State Fault Refusal := .refused .reservedWrb7

/-- Cycle entry (R103, R141): the cadence table is recomputed in full, and the position is the first motor of
the first tick. -/
def State.enterCycle (s : State) : State := (s.setCad (convertAll s.block.speed)).setPos .cycleStart

/-- `RUN` (R103). -/
def execRun (s : State) : Host.Outcome State Fault Refusal := .next (s.accept State.enterCycle)

/-- `FATAL` (R104): `raise Halt`. -/
def execFatal (s : State) : Host.Outcome State Fault Refusal := .next (s.accept State.raiseHalt)

/-- `LOADFRAME v0, ..., v5, f` (R105): seven `WRB`s in ascending offset order, each accepted under R100 (log 13). -/
def execLoadframe (v : Vector Byte 6) (f : Byte) (s : State) : Host.Outcome State Fault Refusal :=
  .next (((((((s.wrb 0 v[0]).wrb 1 v[1]).wrb 2 v[2]).wrb 3 v[3]).wrb 4 v[4]).wrb 5 v[5]).wrb 6 f)

end Sys2Proof.Machine
end

