-- ==== Sys2Proof/Machine/Scheduler.lean ====
section
/-! DEFINITION. The scheduler's own micro-operation (spec/42_scheduler.md R145). Its selection is `decodeCad`
(R143), its advance `Position.advance` (R146). -/

namespace Sys2Proof.Machine

/-- `HOLD m` (R145): `advance`, nothing else. The cadence word has done its work in the selection. -/
def execHold (m : Motor) (_c : Byte) (s : State) : Host.Outcome State Fault Refusal :=
  .next (s.when (s.evaluating m) State.advance)

end Sys2Proof.Machine
end

