-- ==== Sys2Proof/Machine/Sequencer.lean ====
section
/-! DEFINITION. The motor stepper (spec/43_sequencer.md R162 to R165). A step is eight steps of the model: the
evaluation makes the first phase write, three more `PHASE` writes follow, and each write is followed by a delay
completion (R163). -/

namespace Sys2Proof.Machine

/-- `PHASE m, p` (R162). -/
def execPhase (m : Motor) (p : Phase) (s : State) : Host.Outcome State Fault Refusal :=
  .next (s.when (s.mayWritePhase m) fun s => s.writePhase m p)

/-- The evaluation step of `STEPF m` (R163): it performs `PHASE m, 0`. The cadence word has done its work in the
selection (R143). -/
def execStepf (m : Motor) (_c : Byte) (s : State) : Host.Outcome State Fault Refusal :=
  .next (s.when (s.evaluating m) fun s => s.writePhase m (stepPhase true 0))

/-- The evaluation step of `STEPR m` (R164): it performs `PHASE m, 3`. -/
def execStepr (m : Motor) (_c : Byte) (s : State) : Host.Outcome State Fault Refusal :=
  .next (s.when (s.evaluating m) fun s => s.writePhase m (stepPhase false 0))

/-- `STOP m` (R165, R144). -/
def execStop (m : Motor) (s : State) : Host.Outcome State Fault Refusal :=
  .next (s.when (s.evaluating m) fun s => s.writeStop m)

end Sys2Proof.Machine
end

