-- ==== Sys2Proof/Machine/Dispatch.lean ====
section
/-! DEFINITION. One arm per operation of spec/opcode_table.json. -/

namespace Sys2Proof.Machine

def exec (i : Instr) (s : State) : Host.Outcome State Fault Refusal :=
  match i with
  | .nop => Sys2Proof.Machine.execNop s
  | .wrb off val => Sys2Proof.Machine.execWrb off val s
  | .wrb7 val => Sys2Proof.Machine.execWrb7 val s
  | .run => Sys2Proof.Machine.execRun s
  | .fatal => Sys2Proof.Machine.execFatal s
  | .loadframe v f => Sys2Proof.Machine.execLoadframe v f s
  | .conv v => Sys2Proof.Machine.execConv v s
  | .stop m => Sys2Proof.Machine.execStop m s
  | .stepf m c => Sys2Proof.Machine.execStepf m c s
  | .stepr m c => Sys2Proof.Machine.execStepr m c s
  | .hold m c => Sys2Proof.Machine.execHold m c s
  | .phase m p => Sys2Proof.Machine.execPhase m p s
  | .connect => Sys2Proof.Machine.execConnect s
  | .motor payload => Sys2Proof.Machine.execMotor payload s
  | .otherWire b => Sys2Proof.Machine.execOtherWire b s

end Sys2Proof.Machine
end

