-- ==== Sys2Proof/Machine/Step.lean ====
section
/-! DEFINITION. One step of the system (spec/00_scope.md R11), and where a word of the opcode table is placed for
the next step to run it. -/

namespace Sys2Proof.Machine

/-- One step: an event of the outside, else the operation that is fetched and decoded, else a step that is no
operation of the table. -/
def step (s : State) : Host.Outcome State Fault Refusal :=
  match s.takeInput.outside s.input with
  | some t => .next t
  | none =>
    match s.takeInput.fetch s.input with
    | some (e, t) =>
      match decode t.decodeCtx e with
      | some i => exec i t
      | none => .next t
    | none => .next (s.takeInput.otherStep s.input)

/-- `s` with a word of the opcode table placed where the next step fetches it. -/
def State.withFetchWord (s : State) (nbits w : Nat) : State :=
  match tableEncoded nbits w with
  | some (ctx, e) => s.place ctx e
  | none => s

end Sys2Proof.Machine
end

