-- ==== Sys2Proof/Safety.lean ====
section
/-! DEFINITION. What counts as a safe run, in the terms the claims use: the legal values of each part of the state,
the invariant of spec/95_test_vectors.md section 6, the trace a cycle must leave (spec/42_scheduler.md R142 and
R143, spec/43_sequencer.md R163 to R165), and the least time a trace takes (spec/70_reset_and_hazards.md R244). -/

namespace Sys2Proof.Machine

/-! ### Legal values -/

/-- The five patterns of R25 and R169: all off, or one phase energized. -/
def legalPattern (p : Pattern) : Bool := p == 0 || p == 1 || p == 2 || p == 4 || p == 8

/-- The five cadence words of R24: 0, 1, 20, -1, -20. -/
def legalCadence (c : Byte) : Bool := c == 0 || c == 0x01 || c == 0x14 || c == 0xFF || c == 0xEC

/-- The positions of R27: `T = M = K = W = 0` outside a cycle, and inside one the combinations R27 lists. -/
def Position.legal (p : Position) : Bool :=
  match p.state with
  | .idle => p == .idle
  | .halted => p == .halted
  | .cycling =>
    decide (1 ≤ p.t.toNat) && decide (p.t.toNat ≤ Config.maxCycles) &&
      (p.w == (p.k != 0) || (!p.w && decide (1 ≤ p.k.val) && decide (p.k.val ≤ 3)))

/-- A step in progress is the one the cadence selects, and its last write is on the coils: the motor's cadence is
due on this tick (R143) and its coil register holds the `K`-th pattern of its direction (R163, R164). -/
def Block.stepInProgress (b : Block) : Prop :=
  sext8 b.cad[b.pos.m] ≠ 0 ∧ b.pos.t.toNat % period b.cad[b.pos.m] = 0 ∧
    b.coil[b.pos.m] = onehot (stepPhase (decide (0 < sext8 b.cad[b.pos.m])) (Fin.ofNat 4 (b.pos.k.val - 1)))

/-- The invariant of the block: every coil register is off or one-hot (R169), every cadence is one of the five
(R24), the position is legal (R27), the cadences of a running cycle are the conversions of the speeds (R24, R125),
and a step in progress is the one selected. -/
structure Block.Inv (b : Block) : Prop where
  coil : ∀ m : Motor, legalPattern b.coil[m] = true
  cad : ∀ m : Motor, legalCadence b.cad[m] = true
  pos : b.pos.legal = true
  snapshot : b.pos.state = .cycling → ∀ m : Motor, b.cad[m] = convert b.speed[m]
  step : b.pos.state = .cycling → b.pos.k ≠ 0 → b.stepInProgress

/-- The handler awaits at most the seven bytes of a payload (R184). -/
def Handler.legal (h : Handler) : Bool :=
  match h.phase with
  | .awaitingPayload received => decide (received ≤ payloadLength)
  | .disconnected => true
  | .connectedIdle => true

/-- The invariant of the system. -/
structure State.Inv (s : State) : Prop where
  block : s.block.Inv
  handler : s.handler.legal = true

/-- A state that some number of steps reaches from a state that meets the invariant. -/
def State.ReachedFrom (s t : State) : Prop := ∃ n : Nat, Sys2Proof.core.run n s = .next t

/-! ### The trace of a cycle -/

/-- The event is a coil write of motor `m`. -/
def Event.isWriteOf (m : Motor) : Event → Bool
  | .write m' _ => m' == m
  | .delay => false
  | .reset => false

/-- The events of one step of motor `m`: four phase writes, each followed by its delay (R163, R164). -/
def stepTrace (m : Motor) (forward : Bool) : List Event :=
  if forward then
    [.write m (onehot 0), .delay, .write m (onehot 1), .delay, .write m (onehot 2), .delay, .write m (onehot 3), .delay]
  else
    [.write m (onehot 3), .delay, .write m (onehot 2), .delay, .write m (onehot 1), .delay, .write m (onehot 0), .delay]

/-- The events of the evaluation of motor `m` with cadence `c` on tick `t` (R143 to R145, R163 to R165). -/
def evaluationTrace (c : Int) (t : Nat) (m : Motor) : List Event :=
  if c = 0 then [.write m 0]
  else if t % c.natAbs = 0 then stepTrace m (decide (0 < c))
  else []

/-- The model steps an evaluation takes: eight for a motor step, one for a stop or a hold (R163 to R165). -/
def evaluationSteps (c : Int) (t : Nat) : Nat := if c ≠ 0 ∧ t % c.natAbs = 0 then 8 else 1

/-- The motors in the order of every tick (R142). -/
def motors : List Motor := [0, 1, 2, 3, 4, 5]

/-- The ticks of a cycle in order, 1 to `MAX_CYCLES` (R142). -/
def ticks : List Nat := (List.range Config.maxCycles).map (· + 1)

/-- The events of a whole cycle: the nested loop of R142. -/
def cycleTrace (cad : Vector Byte 6) : List Event :=
  ticks.flatMap fun t => motors.flatMap fun m => evaluationTrace (sext8 cad[m]) t m

/-- The model steps of a whole cycle after the acceptance of `RUN`. -/
def cycleSteps (cad : Vector Byte 6) : Nat :=
  (ticks.map fun t => (motors.map fun m => evaluationSteps (sext8 cad[m]) t).sum).sum

/-- How far a cycle has come: positions in the order (T, M, K, then W falling) of R27 and R146. -/
def Position.rank (p : Position) : Nat :=
  2 * (p.k.val + 5 * (p.m.val + 6 * p.t.toNat)) + (if p.w then 0 else 1)

/-- The motor steps of one cycle for a motor with cadence `c`: `MAX_CYCLES / abs(c)`, none if `c = 0` (R148). -/
def stepsPerCycle (c : Int) : Nat := if c = 0 then 0 else Config.maxCycles / c.natAbs

/-- The least time a trace takes: each delay lasts at least `PHASE_DELAY_MS`, everything else costs none (R244). -/
def minDurationMs (trace : List Event) : Nat := Config.phaseDelayMs * trace.count .delay

end Sys2Proof.Machine
end

