-- ==== Sys2Proof/Certificates/Slice0/Obligations.lean ====
section
/-! DEFINITION. The statements for the provers. Each docstring names the rule of spec/ it formalises. -/

open Sys2Proof Sys2Proof.Machine

/-! ### Formats and decoding -/

/-- Words written out in spec/95_test_vectors.md 3.1 and wire bytes of R76 decode to what they stand for. -/
def Obligations.SpecWordsDecode : Prop :=
  decodeCmd 0x0000 = .nop ∧ decodeCmd 0x07FF = .nop ∧ decodeCmd 0x0864 = .wrb 0 100 ∧
    decodeCmd 0x099C = .wrb 1 0x9C ∧ decodeCmd 0x0ABC = .wrb 2 0xBC ∧ decodeCmd 0x0EFF = .wrb 6 0xFF ∧
    decodeCmd 0x0F12 = .wrb7 0x12 ∧ decodeCmd 0x1234 = .run ∧ decodeCmd 0x1FFF = .fatal ∧
    decodeCad 0 20 0x14 = .stepf 0 0x14 ∧ decodeCad 1 7 0xFF = .stepr 1 0xFF ∧ decodeCad 2 19 0x14 = .hold 2 0x14 ∧
    decodeCad 3 1 0x00 = .stop 3 ∧ decodeCoil 4 0b0100 = some (.phase 4 2) ∧
    decodeWire .disconnected [.byte 0xB9] = some .connect ∧
    decodeWire .connectedIdle [.byte 0xA8, .byte 1] = some (.motor [1]) ∧
    decodeWire .connectedIdle [.byte 0xB9] = some (.otherWire 0xB9)

/-- R75, R79(a), R106: the command word's operation is bits 12:11; a `WRB`'s offset is bits 10:8 and its byte bits
7:0; offset 7 is the reserved encoding; the other three ignore both fields. -/
def Obligations.CommandWordFieldsSelectTheCommand : Prop :=
  ∀ w : CmdWord,
    (w.toNat / 2048 = 0 → decodeCmd w = .nop) ∧
    (w.toNat / 2048 = 1 → ∀ off : Offset, w.toNat / 256 % 8 = off.val →
      decodeCmd w = .wrb off (BitVec.ofNat 8 (w.toNat % 256))) ∧
    (w.toNat / 2048 = 1 → w.toNat / 256 % 8 = 7 → decodeCmd w = .wrb7 (BitVec.ofNat 8 (w.toNat % 256))) ∧
    (w.toNat / 2048 = 2 → decodeCmd w = .run) ∧
    (w.toNat / 2048 = 3 → decodeCmd w = .fatal)

/-- R75, R81: encoding what a command word decodes to gives the word back, up to the fields that `NOP`, `RUN` and
`FATAL` ignore, which are written as 0. -/
def Obligations.CommandWordReencodes : Prop :=
  ∀ w : CmdWord, ∃ w' : CmdWord, encode (decodeCmd w) = .cmd w' ∧ decodeCmd w' = decodeCmd w ∧
    w'.toNat / 2048 = w.toNat / 2048 ∧
    (w.toNat / 2048 = 1 → w' = w) ∧ (w.toNat / 2048 ≠ 1 → w'.toNat % 2048 = 0)

/-- Decode and encode agree for every well-formed operation, in every context that selects it (R78). -/
def Obligations.DecodeOfEncodeIsTheOperation : Prop :=
  ∀ (i : Instr) (ctx : DecodeCtx), i.wellFormed = true → i.selectedIn ctx = true →
    decode ctx (encode i) = some i

/-- R143: the four cases of the selection, on the cadence as a signed number, are exhaustive and exclusive. -/
def Obligations.SelectionFollowsCadenceAndTick : Prop :=
  ∀ (m : Motor) (t c : Byte),
    (c.toInt = 0 → decodeCad m t c = .stop m) ∧
    (0 < c.toInt → (t.toNat : Int) % c.toInt = 0 → decodeCad m t c = .stepf m c) ∧
    (c.toInt < 0 → (t.toNat : Int) % (-c.toInt) = 0 → decodeCad m t c = .stepr m c) ∧
    (c.toInt ≠ 0 → (t.toNat : Int) % (c.toInt.natAbs : Int) ≠ 0 → decodeCad m t c = .hold m c)

/-- R80, R184: a wire message is told from its first byte alone, whatever follows it; a MOTOR payload of fewer than seven
bytes is one that no byte follows. -/
def Obligations.WireMessageIsTakenWhole : Prop :=
  ∀ (i : Instr) (phase : HandlerPhase) (m : Motor) (t : Byte) (events rest : List WireEvent),
    i.wellFormed = true → i.selectedIn ⟨m, t, phase⟩ = true → encode i = .wire events →
    (∀ payload, i = .motor payload → payload.length < 7 → ∀ b r, rest ≠ .byte b :: r) →
    wireMessage phase (events ++ rest) = some (events, rest)

/-! ### A step -/

/-- A step runs the operation that is fetched and decoded, when the outside does not make the step. -/
def Obligations.StepRunsDecodedOperation : Prop :=
  ∀ (s u : State) (e : Encoded) (i : Instr),
    s.input.rst = false → s.input.restart = false → s.input.giveUp = false →
    s.takeInput.fetch s.input = some (e, u) → decode u.decodeCtx e = some i → step s = exec i u

/-- R100: a command is accepted exactly when the block is Idle and the host presents it. Then the step is its whole
meaning, the word consumed. Issued but not presented in Idle, it stays the first and nothing happens. In any other state
it stays too, and it has no effect: the block and the trace change as they would with any other commands presented, or
none. -/
def Obligations.CommandsAreAcceptedExactlyInIdle : Prop :=
  ∀ s : State, s.input.restart = false → s.input.giveUp = false →
    (∀ (w : CmdWord) (rest : List CmdWord), s.block.pos.state = .idle → s.handler.cmds = w :: rest →
      s.input.rst = false → s.input.cmdValid = true →
      step s = exec (decodeCmd w) { s with inputs := s.inputs.tail, handler.cmds := rest }) ∧
    (s.block.pos.state = .idle → s.handler.cmds ≠ [] → s.input.rst = false → s.input.cmdValid = false →
      step s = .next { s with inputs := s.inputs.tail }) ∧
    (s.block.pos.state ≠ .idle → s.handler.cmds ≠ [] →
      ∃ t, step s = .next t ∧ t.handler = s.handler ∧
        ∀ cmds : List CmdWord, ∃ t', step { s with handler.cmds := cmds } = .next t' ∧
          t'.block = t.block ∧ t'.trace = t.trace)

/-- R143: at `(Cycling, T, M, 0, 0)` the step is the micro-operation selected from `CAD[M]` and `T`. -/
def Obligations.EvaluationRunsTheSelectedOperation : Prop :=
  ∀ s : State, s.input.rst = false → s.input.restart = false → s.input.giveUp = false →
    s.block.pos.state = .cycling → s.block.pos.k = 0 → s.block.pos.w = false →
    step s = exec (decodeCad s.block.pos.m s.block.pos.t s.block.cad[s.block.pos.m])
      { s with inputs := s.inputs.tail }

/-- R163, R164: inside a step, with the delay over, the next step is the `K`-th phase write, phase `K` forward and
`3 - K` in reverse. With a cadence of 0 there, which the invariant rules out, the spec gives no direction, and the
model goes in reverse (the model's choice, log entry 17). -/
def Obligations.StepContinuesWithTheNextPhase : Prop :=
  ∀ (s : State) (p : Phase), s.input.rst = false → s.input.restart = false → s.input.giveUp = false →
    s.block.pos.state = .cycling → s.block.pos.w = false → 1 ≤ s.block.pos.k.val → s.block.pos.k.val ≤ 3 →
    (0 < s.block.cad[s.block.pos.m].toInt → p.val = s.block.pos.k.val) →
    (s.block.cad[s.block.pos.m].toInt < 0 → p.val = 3 - s.block.pos.k.val) →
    (s.block.cad[s.block.pos.m].toInt = 0 → p.val = 3 - s.block.pos.k.val) →
    step s = exec (.phase s.block.pos.m p) { s with inputs := s.inputs.tail }

/-- R161: the delay completion emits `D`, clears `W`, and after the fourth phase advances; nothing else changes. -/
def Obligations.DelayCompletionEndsTheWait : Prop :=
  ∀ s : State, s.input.rst = false → s.input.restart = false → s.input.giveUp = false →
    s.input.delayDone = true → s.block.pos.state = .cycling → s.block.pos.w = true →
    step s = .next { s with
      inputs := s.inputs.tail
      trace := s.trace ++ [.delay]
      block.pos := if s.block.pos.k.val = 4 then s.block.pos.advance else { s.block.pos with w := false } }

/-- R161: while a delay is in flight the sequencer has no step of its own: without a completion (or an event of the
outside) nothing changes. -/
def Obligations.NothingMovesWhileTheDelayLasts : Prop :=
  ∀ s : State, s.input.rst = false → s.input.restart = false → s.input.giveUp = false →
    s.input.delayDone = false → s.block.pos.state = .cycling → s.block.pos.w = true →
    step s = .next { s with inputs := s.inputs.tail }

/-- R161: "A `delay_done` while `W = 0` is ignored." -/
def Obligations.DelayDoneIsIgnoredWithoutARequest : Prop :=
  ∀ (s : State) (inp : Input) (rest : List Input), s.block.pos.w = false →
    step { s with inputs := { inp with delayDone := true } :: rest } =
      step { s with inputs := { inp with delayDone := false } :: rest }

/-- R231 (and R230, R205): `rst` puts every register of the block at its reset value, from any state and whatever else
happens in the same step: a cycle and a delay in flight are abandoned, all coils go off, and the trace records
`RESET` only. -/
def Obligations.ResetOverridesEverything : Prop :=
  ∀ s : State, s.input.rst = true → ∃ t, step s = .next t ∧
    (∀ m : Motor, t.block.speed[m] = 0 ∧ t.block.cad[m] = 0 ∧ t.block.coil[m] = 0b0000) ∧ t.block.flag = 0 ∧
    t.block.pos = ⟨.idle, 0, 0, 0, false⟩ ∧ t.trace = s.trace ++ [.reset]

/-- The model's choice (log entries 19 and 24; R11: the host and the block are separate agents): `rst` leaves the host
as it is, and a host that restarts or gives up its command leaves the block and the trace as they are. -/
def Obligations.OutsideEventsActOnOneSideOnly : Prop :=
  ∀ s : State,
    (s.input.rst = true → ∃ t, step s = .next t ∧ t.handler = s.handler ∧ t.convOut = s.convOut ∧
      t.inputs = s.inputs.tail) ∧
    (s.input.rst = false → s.input.restart = true → step s = .next { s with
      inputs := s.inputs.tail
      handler.phase := .disconnected
      handler.pending := none
      handler.cmds := [] }) ∧
    (s.input.rst = false → s.input.restart = false → s.input.giveUp = true → step s = .next { s with
      inputs := s.inputs.tail
      handler.cmds := s.handler.cmds.tail })

/-- R32: the state after reset (values of spec/92_eei_decisions.md D15). -/
def Obligations.ResetStateHasTheValuesOfTheTable : Prop :=
  (∀ m : Motor, State.reset.block.speed[m] = 0 ∧ State.reset.block.cad[m] = 0 ∧ State.reset.block.coil[m] = 0) ∧
    State.reset.block.flag = 0 ∧ State.reset.block.pos = ⟨.idle, 0, 0, 0, false⟩

/-! ### Commands -/

/-- R101: in Idle (and, by R100, anywhere) `NOP` changes nothing and emits no event. -/
def Obligations.NopChangesNothing : Prop := ∀ s : State, exec .nop s = .next s

/-- R102: in Idle `WRB off, val` sets `FRAME[off]`, as `SPEED[off] <- sext_8(val)` or `FLAG <- val`, and changes
nothing else: not the other frame bytes, not `CAD`, `COIL` or the position, no event, no cycle. In any other state it
is not accepted and has no effect. -/
def Obligations.WrbWritesOneFrameByte : Prop :=
  ∀ (off : Offset) (val : Byte) (s : State),
    (s.block.pos.state = .idle →
      ∃ t, exec (.wrb off val) s = .next t ∧
        (∀ off' : Offset, t.memRead off' = if off' = off then val else s.memRead off') ∧
        (∀ m : Motor, t.block.speed[m].toInt = if m.val = off.val then val.toInt else s.block.speed[m].toInt) ∧
        t.block.flag = (if off = 6 then val else s.block.flag) ∧
        t.block.cad = s.block.cad ∧ t.block.coil = s.block.coil ∧ t.block.pos = s.block.pos ∧
        t.handler = s.handler ∧ t.convOut = s.convOut ∧ t.inputs = s.inputs ∧ t.trace = s.trace) ∧
    (s.block.pos.state ≠ .idle → exec (.wrb off val) s = .next s)

/-- R54(a): writing the same value twice is the same as writing it once. -/
def Obligations.WrbIsIdempotent : Prop :=
  ∀ (off : Offset) (val : Byte) (s t : State), exec (.wrb off val) s = .next t → exec (.wrb off val) t = .next t

/-- R106: the reserved encoding is refused, in every state. -/
def Obligations.ReservedWrb7IsRefused : Prop :=
  ∀ (val : Byte) (s : State), exec (.wrb7 val) s = .refused .reservedWrb7

/-- R103 (and R125, R141): in Idle `RUN` recomputes all six cadences from the speeds by `CONV` and sets the position to
`(Cycling, 1, 0, 0, 0)`; the frame, the coils, the trace and everything outside the block stay. In any other state it
is not accepted and has no effect: cycles never nest. -/
def Obligations.RunConvertsAndStartsTheCycle : Prop :=
  ∀ s : State,
    (s.block.pos.state = .idle →
      ∃ t, exec .run s = .next t ∧
        (∀ m : Motor, t.block.cad[m].toInt = convertWith 100 20 s.block.speed[m].toInt) ∧
        t.block.pos = ⟨.cycling, 1, 0, 0, false⟩ ∧ t.block.speed = s.block.speed ∧ t.block.flag = s.block.flag ∧
        t.block.coil = s.block.coil ∧ t.handler = s.handler ∧ t.convOut = s.convOut ∧ t.inputs = s.inputs ∧
        t.trace = s.trace) ∧
    (s.block.pos.state ≠ .idle → exec .run s = .next s)

/-- R104, R202 (and R203): in Idle `FATAL` takes the one exception: the position is `(Halted, 0, 0, 0, 0)` and nothing
else changes; in any other state it is not accepted. In Halted no step but a reset changes the block: no command is
accepted and no coil changes. -/
def Obligations.FatalHaltsUntilReset : Prop :=
  ∀ s : State,
    (s.block.pos.state = .idle →
      exec .fatal s = .next { s with block.pos := ⟨.halted, 0, 0, 0, false⟩ }) ∧
    (s.block.pos.state ≠ .idle → exec .fatal s = .next s) ∧
    (s.block.pos.state = .halted → s.input.rst = false → ∃ t, step s = .next t ∧ t.block = s.block)

/-- R105: `LOADFRAME v0, ..., v5, f` is the sequence `WRB 0, v0` to `WRB 5, v5`, `WRB 6, f`. In Idle it overwrites the
whole frame and changes nothing else; in any other state none of the seven is accepted. It is not atomic: after the
first `j` of its words are accepted, offsets below `j` are new and offsets `j..6` keep their old values. -/
def Obligations.LoadframeIsSevenWrbsInOrder : Prop :=
  ∀ (v : Vector Byte 6) (f : Byte) (s : State) (words rest : List CmdWord),
    encode (.loadframe v f) = .cmds words →
    words.map decodeCmd =
      [.wrb 0 v[0], .wrb 1 v[1], .wrb 2 v[2], .wrb 3 v[3], .wrb 4 v[4], .wrb 5 v[5], .wrb 6 f] ∧
    (s.block.pos.state = .idle → exec (.loadframe v f) s = .next { s with block.speed := v, block.flag := f }) ∧
    (s.block.pos.state ≠ .idle → exec (.loadframe v f) s = .next s) ∧
    (s.block.pos.state = .idle → s.inputs = [] → s.handler.cmds = words ++ rest → ∀ j ≤ 7,
      ∃ t, Sys2Proof.core.run j s = .next t ∧ t.handler.cmds = words.drop j ++ rest ∧
        (∀ off : Offset, t.memRead off =
          if off.val < j then (if h : off.val < 6 then v[off.val] else f) else s.memRead off) ∧
        t.block.cad = s.block.cad ∧ t.block.coil = s.block.coil ∧ t.block.pos = s.block.pos ∧ t.trace = s.trace)

/-! ### The converter -/

/-- R120: the conversion is the truncating formula over mathematical integers, for every one of the 256 speeds. -/
def Obligations.ConvertIsTheTruncatingFormula : Prop :=
  ∀ v : Byte, (convert v).toInt =
    if v.toInt = 0 then 0
    else ((20 - 1) * (1 - ((v.toInt.natAbs : Int) - 1).tdiv (100 - 1)) + 1) * v.toInt.sign

/-- R120: `CONV(v)` by itself returns the formula's value and writes no register. Where the value appears is the
model's choice (log entry 12). -/
def Obligations.ConvReturnsItsValueAndWritesNoRegister : Prop :=
  ∀ (v : Byte) (s : State), ∃ t, exec (.conv v) s = .next t ∧
    t.convOut.toInt =
      (if v.toInt = 0 then 0
       else ((20 - 1) * (1 - ((v.toInt.natAbs : Int) - 1).tdiv (100 - 1)) + 1) * v.toInt.sign) ∧
    t.block = s.block ∧ t.handler = s.handler ∧ t.inputs = s.inputs ∧ t.trace = s.trace

/-- R122 (derived by the spec from R120 and R121): the two-level map over all 256 speed bytes. -/
def Obligations.ConvertIsTheTwoLevelMap : Prop :=
  ∀ v : Byte,
    (v.toInt ≤ -100 → convert v = 0xFF) ∧ (-99 ≤ v.toInt → v.toInt ≤ -1 → convert v = 0xEC) ∧
    (v.toInt = 0 → convert v = 0x00) ∧ (1 ≤ v.toInt → v.toInt ≤ 99 → convert v = 0x14) ∧
    (100 ≤ v.toInt → convert v = 0x01)

/-- R121, R122 (derived by the spec): the general form for every parameter value of R9 and every 8-bit speed, and
the result's range. -/
def Obligations.ConversionForEveryParameterValue : Prop :=
  ∀ maxSpeed maxCycles v : Int, 65 ≤ maxSpeed → maxSpeed ≤ 127 → 1 ≤ maxCycles → maxCycles ≤ 127 →
    -128 ≤ v → v ≤ 127 →
    (v = 0 → convertWith maxSpeed maxCycles v = 0) ∧
    (v ≠ 0 → (v.natAbs : Int) ≤ maxSpeed - 1 → convertWith maxSpeed maxCycles v = v.sign * maxCycles) ∧
    (maxSpeed ≤ (v.natAbs : Int) → convertWith maxSpeed maxCycles v = v.sign) ∧
    -maxCycles ≤ convertWith maxSpeed maxCycles v ∧ convertWith maxSpeed maxCycles v ≤ maxCycles

/-- R123: the end points, the stop, and the sign. -/
def Obligations.ConversionEndPointsAndSign : Prop :=
  ∀ v : Byte,
    (v.toInt.natAbs = 1 → (sext8 (convert v)).natAbs = Config.maxCycles) ∧
    (v.toInt.natAbs = Config.maxSpeed → (sext8 (convert v)).natAbs = 1) ∧
    (v.toInt = 0 → sext8 (convert v) = 0) ∧ (v.toInt ≠ 0 → (sext8 (convert v)).sign = v.toInt.sign)

/-! ### The scheduler -/

/-- R146, R147: the position advances to the next motor, after motor 5 to the next tick, after the last tick to
`(Idle, 0, 0, 0, 0)`. -/
def Obligations.AdvanceFollowsTheLoopOrder : Prop :=
  ∀ p : Position, p.state = .cycling →
    (p.m.val < 5 → p.advance = ⟨.cycling, p.t, p.m + 1, 0, false⟩) ∧
    (p.m = 5 → p.t.toNat < 20 → p.advance = ⟨.cycling, p.t + 1, 0, 0, false⟩) ∧
    (p.m = 5 → 20 ≤ p.t.toNat → p.advance = ⟨.idle, 0, 0, 0, false⟩)

/-- R145: at its evaluation `HOLD m` advances and does nothing else: no coil write, no event, no delay. -/
def Obligations.HoldOnlyAdvances : Prop :=
  ∀ (m : Motor) (c : Byte) (s : State),
    s.block.pos.state = .cycling → s.block.pos.m = m → s.block.pos.k = 0 → s.block.pos.w = false →
    exec (.hold m c) s = .next { s with block.pos := s.block.pos.advance }

/-! ### The sequencer -/

/-- R165 (and R144): at its evaluation `STOP m` writes `0b0000` to `COIL[m]`, emits that write even if nothing changes,
and advances with no delay; the other coils and everything else stay. -/
def Obligations.StopDeenergizesTheMotor : Prop :=
  ∀ (m : Motor) (s : State),
    s.block.pos.state = .cycling → s.block.pos.m = m → s.block.pos.k = 0 → s.block.pos.w = false →
    ∃ t, exec (.stop m) s = .next t ∧
      (∀ m' : Motor, t.block.coil[m'] = if m' = m then 0b0000 else s.block.coil[m']) ∧
      t.trace = s.trace ++ [.write m 0b0000] ∧ t.block.pos = s.block.pos.advance ∧
      t.block.speed = s.block.speed ∧ t.block.flag = s.block.flag ∧ t.block.cad = s.block.cad ∧
      t.handler = s.handler ∧ t.convOut = s.convOut ∧ t.inputs = s.inputs

/-- R162: `PHASE m, p` energizes only phase `p` of motor `m`, emits that write even if the pattern is there already,
counts one more phase and requests a delay; the other coils and everything else stay. It is performed where the
sequencer has a phase write of `m` next: `K` in 0..3 and `W = 0`. -/
def Obligations.PhaseEnergizesOnlyThatPhase : Prop :=
  ∀ (m : Motor) (p : Phase) (s : State),
    s.block.pos.state = .cycling → s.block.pos.m = m → s.block.pos.k.val < 4 → s.block.pos.w = false →
    ∃ t, exec (.phase m p) s = .next t ∧
      (∀ (m' : Motor) (q : Fin 4), t.block.coil[m'].getLsbD q.val =
        if m' = m then decide (q = p) else s.block.coil[m'].getLsbD q.val) ∧
      t.trace = s.trace ++ [.write m t.block.coil[m]] ∧
      t.block.pos.k.val = s.block.pos.k.val + 1 ∧ t.block.pos.w = true ∧
      t.block.pos.state = .cycling ∧ t.block.pos.t = s.block.pos.t ∧ t.block.pos.m = m ∧
      t.block.speed = s.block.speed ∧ t.block.flag = s.block.flag ∧ t.block.cad = s.block.cad ∧
      t.handler = s.handler ∧ t.convOut = s.convOut ∧ t.inputs = s.inputs

/-- R163, R164: the evaluation step of `STEPF m` performs `PHASE m, 0`, that of `STEPR m` performs `PHASE m, 3`:
`K = 1`, `W = 1`, the pattern on `COIL[m]` and in the trace, everything else as it was. -/
def Obligations.StepBeginsAtTheFirstPhaseOfItsDirection : Prop :=
  ∀ (i : Instr) (m : Motor) (c : Byte) (first : Pattern) (s : State),
    (i = .stepf m c ∧ first = 0b0001) ∨ (i = .stepr m c ∧ first = 0b1000) →
    s.block.pos.state = .cycling → s.block.pos.m = m → s.block.pos.k = 0 → s.block.pos.w = false →
    ∃ t, exec i s = .next t ∧
      (∀ m' : Motor, t.block.coil[m'] = if m' = m then first else s.block.coil[m']) ∧
      t.trace = s.trace ++ [.write m first] ∧ t.block.pos = { s.block.pos with k := 1, w := true } ∧
      t.block.speed = s.block.speed ∧ t.block.flag = s.block.flag ∧ t.block.cad = s.block.cad ∧
      t.handler = s.handler ∧ t.convOut = s.convOut ∧ t.inputs = s.inputs

/-- The model's choice (log entry 16): a micro-operation named at a position where the sequencer does not have it as
its next step is performed by no agent, and nothing changes. -/
def Obligations.MicroOperationsHaveNoEffectElsewhere : Prop :=
  ∀ (i : Instr) (m : Motor) (s : State),
    (¬ (s.block.pos.state = .cycling ∧ s.block.pos.m = m ∧ s.block.pos.k = 0 ∧ s.block.pos.w = false) →
      (i = .stop m ∨ ∃ c, i = .stepf m c ∨ i = .stepr m c ∨ i = .hold m c) → exec i s = .next s) ∧
    (¬ (s.block.pos.state = .cycling ∧ s.block.pos.m = m ∧ s.block.pos.k.val < 4 ∧ s.block.pos.w = false) →
      (∃ p, i = .phase m p) → exec i s = .next s)

/-- R163: one step forward: from the evaluation of a motor whose positive cadence divides the tick, eight steps of
the model leave `W(m,0001) D W(m,0010) D W(m,0100) D W(m,1000) D` in the trace, phase 3 energized, and the position
advanced; everything else stays. -/
def Obligations.ForwardStepSweepsPhases0To3 : Prop :=
  ∀ (s : State) (m : Motor), s.inputs = [] → s.block.pos.state = .cycling → s.block.pos.m = m →
    s.block.pos.k = 0 → s.block.pos.w = false → 0 < s.block.cad[m].toInt →
    (s.block.pos.t.toNat : Int) % s.block.cad[m].toInt = 0 →
    ∃ t, Sys2Proof.core.run 8 s = .next t ∧
      t.trace = s.trace ++ [.write m 0b0001, .delay, .write m 0b0010, .delay, .write m 0b0100, .delay,
        .write m 0b1000, .delay] ∧
      (∀ m' : Motor, t.block.coil[m'] = if m' = m then 0b1000 else s.block.coil[m']) ∧
      t.block.pos = s.block.pos.advance ∧ t.block.speed = s.block.speed ∧ t.block.flag = s.block.flag ∧
      t.block.cad = s.block.cad ∧ t.handler = s.handler ∧ t.convOut = s.convOut ∧ t.inputs = []

/-- R164: one step in reverse: the same with phases 3 to 0, phase 0 energized at the end. -/
def Obligations.ReverseStepSweepsPhases3To0 : Prop :=
  ∀ (s : State) (m : Motor), s.inputs = [] → s.block.pos.state = .cycling → s.block.pos.m = m →
    s.block.pos.k = 0 → s.block.pos.w = false → s.block.cad[m].toInt < 0 →
    (s.block.pos.t.toNat : Int) % (-s.block.cad[m].toInt) = 0 →
    ∃ t, Sys2Proof.core.run 8 s = .next t ∧
      t.trace = s.trace ++ [.write m 0b1000, .delay, .write m 0b0100, .delay, .write m 0b0010, .delay,
        .write m 0b0001, .delay] ∧
      (∀ m' : Motor, t.block.coil[m'] = if m' = m then 0b0001 else s.block.coil[m']) ∧
      t.block.pos = s.block.pos.advance ∧ t.block.speed = s.block.speed ∧ t.block.flag = s.block.flag ∧
      t.block.cad = s.block.cad ∧ t.handler = s.handler ∧ t.convOut = s.convOut ∧ t.inputs = []

/-! ### The whole cycle -/

/-- R142, R143, R147: from the start of a cycle, for every cadence table (R126: the scheduler's rules are stated for
every cadence), the machine runs the nested loop over ticks 1..20 and motors 0..5 and returns to Idle: the trace
grows by exactly that loop's events in that order, and cycle exit touches no frame byte and no cadence. -/
def Obligations.CycleLeavesTheTraceOfTheNestedLoop : Prop :=
  ∀ s : State, s.inputs = [] → s.block.pos = ⟨.cycling, 1, 0, 0, false⟩ →
    ∃ t, Sys2Proof.core.run (cycleSteps s.block.cad) s = .next t ∧
      t.trace = s.trace ++ cycleTrace s.block.cad ∧ t.block.pos = ⟨.idle, 0, 0, 0, false⟩ ∧
      (∀ m : Motor, t.block.coil[m] =
        if s.block.cad[m].toInt = 0 then 0b0000
        else if 20 < s.block.cad[m].toInt.natAbs then s.block.coil[m]
        else if 0 < s.block.cad[m].toInt then 0b1000 else 0b0001) ∧
      t.block.speed = s.block.speed ∧ t.block.flag = s.block.flag ∧ t.block.cad = s.block.cad ∧
      t.handler = s.handler ∧ t.convOut = s.convOut ∧ t.inputs = []

/-- R148, R166, R244: in the events of a cycle each motor with cadence `c ≠ 0` makes `MAX_CYCLES / abs(c)` steps of
four writes, a stopped motor `MAX_CYCLES` writes; there are four delays per step, and the cycle lasts at least
`PHASE_DELAY_MS` for each of them, whatever `PHASE_DELAY_MS` is. -/
def Obligations.CycleCountsStepsAndDelays : Prop :=
  ∀ s : State, s.inputs = [] → s.block.pos = ⟨.cycling, 1, 0, 0, false⟩ →
    ∃ (n : Nat) (t : State) (events : List Event), Sys2Proof.core.run n s = .next t ∧ t.block.pos.state = .idle ∧
      t.trace = s.trace ++ events ∧
      (∀ m : Motor, events.countP (Event.isWriteOf m) =
        if s.block.cad[m].toInt = 0 then 20 else 4 * (20 / s.block.cad[m].toInt.natAbs)) ∧
      events.count .delay = 4 * (motors.map fun m => stepsPerCycle s.block.cad[m].toInt).sum ∧
      minDurationMs events =
        4 * Config.phaseDelayMs * (motors.map fun m => stepsPerCycle s.block.cad[m].toInt).sum

/-- R147, R27: "A cycle always exits, provided every requested delay is eventually completed": every step of a cycle
that is not an event of the outside and not a wait for a delay brings the position forward, or ends the cycle. -/
def Obligations.EveryStepOfACycleGoesForward : Prop :=
  ∀ s : State, s.Inv → s.input.rst = false → s.input.restart = false → s.input.giveUp = false →
    s.block.pos.state = .cycling → (s.block.pos.w = true → s.input.delayDone = true) →
    ∃ t, step s = .next t ∧
      (t.block.pos = ⟨.idle, 0, 0, 0, false⟩ ∨
        t.block.pos.state = .cycling ∧ s.block.pos.rank < t.block.pos.rank)

/-- R147: from any state of a cycle that meets the invariant, with every requested delay completed, the block is
Idle again after at most 1200 steps. -/
def Obligations.EveryCycleEnds : Prop :=
  ∀ s : State, s.Inv → s.inputs = [] → s.block.pos.state = .cycling →
    ∃ (n : Nat) (t : State), n ≤ 1200 ∧ Sys2Proof.core.run n s = .next t ∧ t.block.pos = ⟨.idle, 0, 0, 0, false⟩

/-! ### What stays -/

/-- R149, R60: while a cycle runs, nothing but reset changes a speed, the flag or a cadence, whatever the host, the
wire and the time base do. -/
def Obligations.NoFrameOrCadenceChangeDuringACycle : Prop :=
  ∀ s : State, s.input.rst = false → s.block.pos.state = .cycling →
    ∃ t, step s = .next t ∧ t.block.speed = s.block.speed ∧ t.block.flag = s.block.flag ∧
      t.block.cad = s.block.cad ∧ t.block.pos.state ≠ .halted

/-- R140, R212: in Idle, with no command accepted and no reset, the block does not change: it never enters a cycle on
its own, and every coil keeps its level. -/
def Obligations.IdleBlockChangesOnlyByACommand : Prop :=
  ∀ s : State, s.input.rst = false → s.block.pos.state = .idle →
    (s.handler.cmds = [] ∨ s.input.cmdValid = false ∨ s.input.restart = true ∨ s.input.giveUp = true) →
    ∃ t, step s = .next t ∧ t.block = s.block

/-- R167: a coil register changes only by reset or by a `PHASE` or `STOP` of its own motor: not by a `HOLD`, not
while a delay lasts, not at the end of a cycle, not in Idle or Halted. -/
def Obligations.CoilsKeepTheirLevel : Prop :=
  ∀ (s t : State) (m : Motor), step s = .next t → t.block.coil[m] ≠ s.block.coil[m] →
    s.input.rst = true ∨
      (s.block.pos.state = .cycling ∧ s.block.pos.m = m ∧ s.block.pos.w = false ∧
        ¬ (s.block.pos.k = 0 ∧ s.block.cad[m].toInt ≠ 0 ∧
          s.block.pos.t.toNat % s.block.cad[m].toInt.natAbs ≠ 0))

/-- R26: the only transitions of `STATE`: a reset to Idle, Idle to Cycling on `RUN`, Cycling to Idle after the last
motor of the last tick, Idle to Halted on `FATAL`. -/
def Obligations.OperatingStateHasOnlyTheListedTransitions : Prop :=
  ∀ s t : State, step s = .next t → t.block.pos.state ≠ s.block.pos.state →
    (s.input.rst = true ∧ t.block.pos.state = .idle) ∨
    (s.block.pos.state = .idle ∧ t.block.pos.state = .cycling ∧
      ∃ w rest, s.handler.cmds = w :: rest ∧ decodeCmd w = .run) ∨
    (s.block.pos.state = .cycling ∧ s.block.pos.m = 5 ∧ 20 ≤ s.block.pos.t.toNat ∧ t.block.pos.state = .idle) ∨
    (s.block.pos.state = .idle ∧ t.block.pos.state = .halted ∧
      ∃ w rest, s.handler.cmds = w :: rest ∧ decodeCmd w = .fatal)

/-- R21, R24, R34 (invariants 4 and 5 of spec/95_test_vectors.md section 6): without a reset a frame byte changes only
where an Idle block accepts a `WRB` to its own offset, and the cadence table only where it accepts a `RUN`. -/
def Obligations.FrameAndCadencesHaveOneWriter : Prop :=
  ∀ s t : State, step s = .next t → s.input.rst = false →
    (∀ off : Offset, t.memRead off ≠ s.memRead off → s.block.pos.state = .idle ∧
      ∃ w rest val, s.handler.cmds = w :: rest ∧ decodeCmd w = .wrb off val ∧ t.memRead off = val) ∧
    (t.block.cad ≠ s.block.cad → s.block.pos.state = .idle ∧
      (∃ w rest, s.handler.cmds = w :: rest ∧ decodeCmd w = .run) ∧
      ∀ m : Motor, t.block.cad[m] = convert s.block.speed[m])

/-- R22: `FLAG` is never read: two states that differ in it only make the same step, up to the flag. -/
def Obligations.FlagIsNeverRead : Prop :=
  ∀ (s : State) (v : Byte),
    (∀ t, step s = .next t → ∃ u, step { s with block.flag := v } = .next u ∧
      { u with block.flag := 0 } = { t with block.flag := 0 }) ∧
    (∀ r, step s = .refused r → step { s with block.flag := v } = .refused r)

/-- R200, R201: exec answers a next state for every operation but `WRB 7`, which it refuses; nothing faults. That it does
so where the operation has no step is the model's choice: a micro-operation away from its position (log entry 16), a
command outside Idle (log entry 25), a wire operation outside a receive (log entry 27). -/
def Obligations.OnlyTheReservedEncodingIsRefused : Prop :=
  ∀ (i : Instr) (s : State), (∃ t, exec i s = .next t) ∨
    (∃ val, i = .wrb7 val) ∧ exec i s = .refused .reservedWrb7

/-! ### Invariants -/

/-- R169, R27, R24, R125: every step keeps the invariant: coils off or one-hot, the five cadences, a legal position,
the cadences of a running cycle the conversions of the speeds, a step in progress the selected one. -/
def Obligations.EveryStepKeepsTheInvariant : Prop :=
  ∀ s t : State, s.Inv → step s = .next t → t.Inv

/-- The invariant holds after reset. -/
def Obligations.ResetMeetsTheInvariant : Prop := State.reset.Inv

/-! ### Outputs -/

/-- R30: `cmd_ready`, `busy` and `halted` show `STATE`, and `delay_req` shows `W`. -/
def Obligations.StatusOutputsShowStateAndWait : Prop :=
  ∀ b : Block,
    (b.cmdReady = true ↔ b.pos.state = .idle) ∧ (b.busy = true ↔ b.pos.state = .cycling) ∧
    (b.halted = true ↔ b.pos.state = .halted) ∧ b.delayReq = b.pos.w

/-- R33: wire `4*m + p` of the coil bus is bit `p` of `COIL[m]`. -/
def Obligations.CoilBusIsTheCoilRegisters : Prop :=
  ∀ (b : Block) (m : Motor) (p : Phase), b.coilBus.getLsbD (4 * m.val + p.val) = b.coil[m].getLsbD p.val

/-! ### The host side -/

/-- R182, R187: the byte `0xB9` read by a free handler: Disconnected, exactly three `"ACK"` are sent (the bytes of
an ACK are log entry 10) and it is Connected-Idle, with no block command issued; Connected-Idle, it is ignored and
sends nothing, and the iteration ends with its `RUN` as the policy says. The block is not touched. That the byte read is
kept as pending is the model's choice (log entry 23). -/
def Obligations.ConnectByteShakesHandsOnce : Prop :=
  ∀ s : State, s.handler.cmds = [] → s.block.pos.state = .idle →
    (s.handler.phase = .disconnected → exec .connect s = .next { s with
      handler.phase := .connectedIdle
      handler.tx := s.handler.tx ++ [0x41, 0x43, 0x4B, 0x41, 0x43, 0x4B, 0x41, 0x43, 0x4B] }) ∧
    (s.handler.phase = .connectedIdle → exec .connect s = .next { s with
      handler.pending := some 0xB9
      handler.cmds := if s.handler.policy = .always then [0x1000] else [] })

/-- R182, R187, R185, R193: any other byte read by a free handler: Disconnected it is discarded, also `0xA8`;
Connected-Idle it is a no-op for the iteration, which ends with `RUN` under `ALWAYS` and without under `ONLY_FRESH`.
The frame and the rest of the block are not touched, and nothing is sent. That the byte read is kept as pending is the
model's choice (log entry 23). -/
def Obligations.OtherWireBytesAreIgnored : Prop :=
  ∀ (b : Byte) (s : State), s.handler.cmds = [] → s.block.pos.state = .idle →
    (s.handler.phase = .disconnected → b ≠ 0xB9 → exec (.otherWire b) s = .next s) ∧
    (s.handler.phase = .connectedIdle → b ≠ 0xA8 → exec (.otherWire b) s = .next { s with
      handler.pending := some b
      handler.cmds := if s.handler.policy = .always then [0x1000] else [] })

/-- R183, R184: a MOTOR message read by a free, connected handler: it is Connected-Awaiting-Payload, with the payload
still to be received. Each payload byte is received in a step of its own, in order of arrival from offset 0, and its
`WRB` is issued as it arrives, no more and no less; the words of a complete payload are those of one `LOADFRAME`. The
block is not touched, and nothing is sent. That `0xA8` is kept as pending is the model's choice (log entry 23). -/
def Obligations.MotorMessageIssuesItsWrites : Prop :=
  ∀ s : State, s.handler.cmds = [] → s.block.pos.state = .idle →
    (∀ payload : List Byte, s.handler.phase = .connectedIdle → exec (.motor payload) s = .next { s with
      handler.phase := .awaitingPayload 0
      handler.pending := some 0xA8
      handler.rx := payload.map .byte ++ s.handler.rx }) ∧
    (∀ (j : Offset) (b : Byte) (rest : List WireEvent),
      s.input.rst = false → s.input.restart = false → s.input.giveUp = false →
      s.handler.phase = .awaitingPayload j.val → s.handler.rx = .byte b :: rest → ∃ w : CmdWord,
        step s = .next { s with
          inputs := s.inputs.tail
          handler.phase := .awaitingPayload (j.val + 1)
          handler.rx := rest
          handler.cmds := [w] } ∧
        decodeCmd w = .wrb j b ∧
        ∀ (v : Vector Byte 6) (f : Byte) (words : List CmdWord), encode (.loadframe v f) = .cmds words →
          (v.toList ++ [f])[j.val]? = some b → words[j.val]? = some w)

/-- The model's choices (log entries 14, 15 and 27). A MOTOR message named before the handshake: `0xA8` is ignored
and the bytes after it are left on the wire (R182: read one at a time). A wire operation named while the handler is not
free to read a message (a command outstanding, a block that is not Idle, a payload awaited): nothing changes. -/
def Obligations.WireOperationsNeedAFreeHandler : Prop :=
  ∀ (i : Instr) (payload : List Byte) (b : Byte) (s : State),
    (s.handler.cmds = [] → s.block.pos.state = .idle → s.handler.phase = .disconnected →
      exec (.motor payload) s = .next { s with handler.rx := payload.map .byte ++ s.handler.rx }) ∧
    (i = .connect ∨ i = .motor payload ∨ i = .otherWire b →
      s.handler.cmds ≠ [] ∨ s.block.pos.state ≠ .idle ∨ (∃ n, s.handler.phase = .awaitingPayload n) →
      exec i s = .next s)

/-- R188: the device transmits nothing but the three ACKs of the handshake: whatever a step does, either nothing is
sent, or a Disconnected handler reads `0xB9`, sends exactly three `"ACK"` and is connected (the bytes of an ACK are
log entry 10). -/
def Obligations.DeviceTransmitsOnlyTheHandshake : Prop :=
  ∀ s t : State, step s = .next t →
    t.handler.tx = s.handler.tx ∨
      (s.handler.phase = .disconnected ∧ (∃ rest, s.handler.rx = .byte 0xB9 :: rest) ∧
        t.handler.phase = .connectedIdle ∧
        t.handler.tx = s.handler.tx ++ [0x41, 0x43, 0x4B, 0x41, 0x43, 0x4B, 0x41, 0x43, 0x4B])

/-- R185, R189, R193: the end of an iteration without a further byte. After the seventh payload byte the handler
returns to Connected-Idle and issues `RUN` under `ALWAYS`, or if this was a MOTOR message; a receive without a byte
ends a shorter payload, and the handler returns to Connected-Idle and issues `RUN` under `ALWAYS` only; a receive
without a byte in Connected-Idle issues `RUN` under `ALWAYS` only; Disconnected the handler waits without limit, and
stays so with nothing issued. The model's: completeness is read from the pending byte, and a receive without a byte
leaves none pending (log entry 23); `ONLY_FRESH` after a short payload (log entry 7, R193); a used-up wire is silence
(log entry 28); an error of the link is taken as a timeout (log entry 29). -/
def Obligations.IterationEndsWithRunAsThePolicySays : Prop :=
  ∀ s : State, s.input.rst = false → s.input.restart = false → s.input.giveUp = false →
    s.handler.cmds = [] → s.block.pos.state = .idle →
    (s.handler.phase = .awaitingPayload 7 → step s = .next { s with
      inputs := s.inputs.tail
      handler.phase := .connectedIdle
      handler.cmds := if s.handler.policy = .always ∨ s.handler.pending = some 0xA8 then [0x1000] else [] }) ∧
    ((s.handler.rx = [] ∨ ∃ rest, s.handler.rx = .timeout :: rest ∨ s.handler.rx = .error :: rest) →
      (∀ n < 7, s.handler.phase = .awaitingPayload n → step s = .next { s with
        inputs := s.inputs.tail
        handler.phase := .connectedIdle
        handler.rx := s.handler.rx.tail
        handler.cmds := if s.handler.policy = .always then [0x1000] else [] }) ∧
      (s.handler.phase = .connectedIdle → step s = .next { s with
        inputs := s.inputs.tail
        handler.pending := none
        handler.rx := s.handler.rx.tail
        handler.cmds := if s.handler.policy = .always then [0x1000] else [] }) ∧
      (s.handler.phase = .disconnected → step s = .next { s with
        inputs := s.inputs.tail
        handler.rx := s.handler.rx.tail }))

/-- R186, R105, R103: a complete MOTOR message on the wire of a connected handler with an Idle block: seventeen steps
later (the command-id byte; seven receives, each with the acceptance of its `WRB`; the return; the acceptance of
`RUN`) the frame holds its seven bytes, the cadences are their conversions and the cycle has begun. The model's:
`0xA8` stays pending (log entry 23). -/
def Obligations.CompleteMotorMessageStartsItsCycle : Prop :=
  ∀ (s : State) (v : Vector Byte 6) (f : Byte) (rest : List WireEvent),
    s.inputs = [] → s.block.pos.state = .idle → s.handler.cmds = [] → s.handler.phase = .connectedIdle →
    s.handler.rx = [.byte 0xA8, .byte v[0], .byte v[1], .byte v[2], .byte v[3], .byte v[4], .byte v[5], .byte f] ++
      rest →
    ∃ t, Sys2Proof.core.run 17 s = .next t ∧ t.block.speed = v ∧ t.block.flag = f ∧
      (∀ m : Motor, t.block.cad[m].toInt = convertWith 100 20 v[m].toInt) ∧
      t.block.pos = ⟨.cycling, 1, 0, 0, false⟩ ∧ t.block.coil = s.block.coil ∧ t.trace = s.trace ∧
      t.handler = { s.handler with pending := some 0xA8, rx := rest } ∧ t.convOut = s.convOut

/-- R184, R186, R54(b), R193: if only `j < 7` payload bytes arrive before the timeout, only offsets `0..j-1` are
written; the others keep their old values; then `RUN` is issued as the policy says. The model's: no `RUN` under
`ONLY_FRESH`, where R186 writes one without naming the policy (log entry 7, after R193); `0xA8` stays pending (log
entry 23); a used-up wire is silence (log entry 28); an error of the link ends a payload as a timeout does (log entry
29). -/
def Obligations.PartialPayloadWritesOnlyWhatArrived : Prop :=
  ∀ (s : State) (payload : List Byte) (ended rest : List WireEvent), payload.length < 7 →
    (ended = .timeout :: rest ∨ ended = .error :: rest ∨ (ended = [] ∧ rest = [])) →
    s.inputs = [] → s.block.pos.state = .idle → s.handler.cmds = [] → s.handler.phase = .connectedIdle →
    s.handler.rx = .byte 0xA8 :: payload.map .byte ++ ended →
    ∃ t, Sys2Proof.core.run (2 * payload.length + 2) s = .next t ∧
      (∀ off : Offset, t.memRead off = (payload[off.val]?).getD (s.memRead off)) ∧
      t.block.cad = s.block.cad ∧ t.block.coil = s.block.coil ∧ t.block.pos = s.block.pos ∧ t.trace = s.trace ∧
      t.handler = { s.handler with
        pending := some 0xA8
        rx := rest
        cmds := if s.handler.policy = .always then [0x1000] else [] }

/-- R182, R183, R187, R80: a free handler with a byte on its line: the step is the operation of exactly one message: one
byte before the handshake; one byte other than `0xA8` after it; `0xA8` with the payload bytes up to the seventh, or up to
where no byte follows, as its operand. (exec of MOTOR leaves the payload on the line, to be received byte by byte:
MotorMessageIssuesItsWrites.) -/
def Obligations.WireMessageIsReadAndRun : Prop :=
  ∀ (s : State) (b : Byte) (payload : List Byte) (rest : List WireEvent),
    s.input.rst = false → s.input.restart = false → s.input.giveUp = false →
    s.block.pos.state = .idle → s.handler.cmds = [] →
    (s.handler.phase = .disconnected → s.handler.rx = .byte b :: rest →
      step s = exec (if b = 0xB9 then .connect else .otherWire b)
        { s with inputs := s.inputs.tail, handler.rx := rest }) ∧
    (s.handler.phase = .connectedIdle → b ≠ 0xA8 → s.handler.rx = .byte b :: rest →
      step s = exec (.otherWire b) { s with inputs := s.inputs.tail, handler.rx := rest }) ∧
    (s.handler.phase = .connectedIdle → s.handler.rx = .byte 0xA8 :: payload.map .byte ++ rest →
      payload.length ≤ 7 → (payload.length < 7 → ∀ b' r, rest ≠ .byte b' :: r) →
      step s = exec (.motor payload) { s with inputs := s.inputs.tail, handler.rx := rest })
end

