-- ==== Sys2Proof/Laws/Converter.lean ====
section
/-! SUPPORT. Small facts about the notation of spec/00_scope.md R12 and the converter. -/

namespace Sys2Proof

/-- `sext_8` is the two's-complement value of the byte (93_implementation_defined.md G1). -/
theorem sext8_eq_toInt (b : Byte) : sext8 b = b.toInt := by
  have := b.isLt
  unfold sext8
  rw [BitVec.toInt_eq_toNat_cond]
  split <;> split <;> omega

theorem sext8_range (b : Byte) : -128 ≤ sext8 b ∧ sext8 b ≤ 127 := by
  have := b.isLt
  unfold sext8
  split <;> omega

/-- The sign of a byte is its bit 7 (R71, R73). -/
theorem sext8_neg_iff (b : Byte) : sext8 b < 0 ↔ b.msb = true := by
  have := b.isLt
  rw [BitVec.msb_eq_decide, decide_eq_true_iff]
  unfold sext8
  split <;> omega

theorem sext8_eq_zero_iff (b : Byte) : sext8 b = 0 ↔ b = 0 := by
  have := b.isLt
  rw [← BitVec.toNat_inj]
  unfold sext8
  split <;> simp <;> omega

/-- A period is at most 128, computed without wrap-around (R12, R121). -/
theorem period_le (c : Byte) : period c ≤ 128 := by
  have := sext8_range c
  unfold period
  omega

theorem period_eq_zero_iff (c : Byte) : period c = 0 ↔ c = 0 := by
  rw [← sext8_eq_zero_iff]
  exact Int.natAbs_eq_zero

/-- The four patterns of a phase (R74). -/
theorem onehot_values : onehot 0 = 1 ∧ onehot 1 = 2 ∧ onehot 2 = 4 ∧ onehot 3 = 8 := by decide

namespace Machine

/-- The table recompute stores each motor's own conversion (R125). -/
theorem convertAll_getElem (speed : Vector Byte 6) (m : Motor) :
    (convertAll speed)[m] = convert speed[m] := by
  match m with
  | 0 => rfl
  | 1 => rfl
  | 2 => rfl
  | 3 => rfl
  | 4 => rfl
  | 5 => rfl

end Machine

end Sys2Proof
end

