-- ==== Sys2Proof/Laws/State.lean ====
section
/-! SUPPORT. For each named update of State, what each field of the result is. -/

namespace Sys2Proof.Machine

section
variable (s : State) (p : Position)

@[simp] theorem State.setPos_block_speed : (s.setPos p).block.speed = s.block.speed := rfl
@[simp] theorem State.setPos_block_flag : (s.setPos p).block.flag = s.block.flag := rfl
@[simp] theorem State.setPos_block_cad : (s.setPos p).block.cad = s.block.cad := rfl
@[simp] theorem State.setPos_block_coil : (s.setPos p).block.coil = s.block.coil := rfl
@[simp] theorem State.setPos_block_pos : (s.setPos p).block.pos = p := rfl
@[simp] theorem State.setPos_handler : (s.setPos p).handler = s.handler := rfl
@[simp] theorem State.setPos_convOut : (s.setPos p).convOut = s.convOut := rfl
@[simp] theorem State.setPos_inputs : (s.setPos p).inputs = s.inputs := rfl
@[simp] theorem State.setPos_trace : (s.setPos p).trace = s.trace := rfl

end

section
variable (s : State) (m : Motor) (pattern : Pattern)

@[simp] theorem State.setCoil_block_speed : (s.setCoil m pattern).block.speed = s.block.speed := rfl
@[simp] theorem State.setCoil_block_flag : (s.setCoil m pattern).block.flag = s.block.flag := rfl
@[simp] theorem State.setCoil_block_cad : (s.setCoil m pattern).block.cad = s.block.cad := rfl
@[simp] theorem State.setCoil_block_coil : (s.setCoil m pattern).block.coil = s.block.coil.set m.val pattern m.isLt := rfl
@[simp] theorem State.setCoil_block_pos : (s.setCoil m pattern).block.pos = s.block.pos := rfl
@[simp] theorem State.setCoil_handler : (s.setCoil m pattern).handler = s.handler := rfl
@[simp] theorem State.setCoil_convOut : (s.setCoil m pattern).convOut = s.convOut := rfl
@[simp] theorem State.setCoil_inputs : (s.setCoil m pattern).inputs = s.inputs := rfl
@[simp] theorem State.setCoil_trace : (s.setCoil m pattern).trace = s.trace := rfl

end

section
variable (s : State) (cad : Vector Byte 6)

@[simp] theorem State.setCad_block_speed : (s.setCad cad).block.speed = s.block.speed := rfl
@[simp] theorem State.setCad_block_flag : (s.setCad cad).block.flag = s.block.flag := rfl
@[simp] theorem State.setCad_block_cad : (s.setCad cad).block.cad = cad := rfl
@[simp] theorem State.setCad_block_coil : (s.setCad cad).block.coil = s.block.coil := rfl
@[simp] theorem State.setCad_block_pos : (s.setCad cad).block.pos = s.block.pos := rfl
@[simp] theorem State.setCad_handler : (s.setCad cad).handler = s.handler := rfl
@[simp] theorem State.setCad_convOut : (s.setCad cad).convOut = s.convOut := rfl
@[simp] theorem State.setCad_inputs : (s.setCad cad).inputs = s.inputs := rfl
@[simp] theorem State.setCad_trace : (s.setCad cad).trace = s.trace := rfl

end

section
variable (s : State) (e : Event)

@[simp] theorem State.emit_block_speed : (s.emit e).block.speed = s.block.speed := rfl
@[simp] theorem State.emit_block_flag : (s.emit e).block.flag = s.block.flag := rfl
@[simp] theorem State.emit_block_cad : (s.emit e).block.cad = s.block.cad := rfl
@[simp] theorem State.emit_block_coil : (s.emit e).block.coil = s.block.coil := rfl
@[simp] theorem State.emit_block_pos : (s.emit e).block.pos = s.block.pos := rfl
@[simp] theorem State.emit_handler : (s.emit e).handler = s.handler := rfl
@[simp] theorem State.emit_convOut : (s.emit e).convOut = s.convOut := rfl
@[simp] theorem State.emit_inputs : (s.emit e).inputs = s.inputs := rfl
@[simp] theorem State.emit_trace : (s.emit e).trace = s.trace ++ [e] := rfl
@[simp] theorem State.emit_block : (s.emit e).block = s.block := rfl

end

section
variable (s : State) (h : Handler)

@[simp] theorem State.setHandler_block_speed : (s.setHandler h).block.speed = s.block.speed := rfl
@[simp] theorem State.setHandler_block_flag : (s.setHandler h).block.flag = s.block.flag := rfl
@[simp] theorem State.setHandler_block_cad : (s.setHandler h).block.cad = s.block.cad := rfl
@[simp] theorem State.setHandler_block_coil : (s.setHandler h).block.coil = s.block.coil := rfl
@[simp] theorem State.setHandler_block_pos : (s.setHandler h).block.pos = s.block.pos := rfl
@[simp] theorem State.setHandler_handler : (s.setHandler h).handler = h := rfl
@[simp] theorem State.setHandler_convOut : (s.setHandler h).convOut = s.convOut := rfl
@[simp] theorem State.setHandler_inputs : (s.setHandler h).inputs = s.inputs := rfl
@[simp] theorem State.setHandler_trace : (s.setHandler h).trace = s.trace := rfl
@[simp] theorem State.setHandler_block : (s.setHandler h).block = s.block := rfl

end

section
variable (s : State) (v : Byte)

@[simp] theorem State.setConvOut_block_speed : (s.setConvOut v).block.speed = s.block.speed := rfl
@[simp] theorem State.setConvOut_block_flag : (s.setConvOut v).block.flag = s.block.flag := rfl
@[simp] theorem State.setConvOut_block_cad : (s.setConvOut v).block.cad = s.block.cad := rfl
@[simp] theorem State.setConvOut_block_coil : (s.setConvOut v).block.coil = s.block.coil := rfl
@[simp] theorem State.setConvOut_block_pos : (s.setConvOut v).block.pos = s.block.pos := rfl
@[simp] theorem State.setConvOut_handler : (s.setConvOut v).handler = s.handler := rfl
@[simp] theorem State.setConvOut_convOut : (s.setConvOut v).convOut = v := rfl
@[simp] theorem State.setConvOut_inputs : (s.setConvOut v).inputs = s.inputs := rfl
@[simp] theorem State.setConvOut_trace : (s.setConvOut v).trace = s.trace := rfl
@[simp] theorem State.setConvOut_block : (s.setConvOut v).block = s.block := rfl

end

section
variable (s : State) (l : List Input)

@[simp] theorem State.setInputs_block_speed : (s.setInputs l).block.speed = s.block.speed := rfl
@[simp] theorem State.setInputs_block_flag : (s.setInputs l).block.flag = s.block.flag := rfl
@[simp] theorem State.setInputs_block_cad : (s.setInputs l).block.cad = s.block.cad := rfl
@[simp] theorem State.setInputs_block_coil : (s.setInputs l).block.coil = s.block.coil := rfl
@[simp] theorem State.setInputs_block_pos : (s.setInputs l).block.pos = s.block.pos := rfl
@[simp] theorem State.setInputs_handler : (s.setInputs l).handler = s.handler := rfl
@[simp] theorem State.setInputs_convOut : (s.setInputs l).convOut = s.convOut := rfl
@[simp] theorem State.setInputs_inputs : (s.setInputs l).inputs = l := rfl
@[simp] theorem State.setInputs_trace : (s.setInputs l).trace = s.trace := rfl
@[simp] theorem State.setInputs_block : (s.setInputs l).block = s.block := rfl

end

section
variable (s : State) (off : Offset) (v : Byte)

@[simp] theorem State.memWrite_block_cad : (s.memWrite off v).block.cad = s.block.cad := by
  unfold State.memWrite; split <;> rfl
@[simp] theorem State.memWrite_block_coil : (s.memWrite off v).block.coil = s.block.coil := by
  unfold State.memWrite; split <;> rfl
@[simp] theorem State.memWrite_block_pos : (s.memWrite off v).block.pos = s.block.pos := by
  unfold State.memWrite; split <;> rfl
@[simp] theorem State.memWrite_handler : (s.memWrite off v).handler = s.handler := by
  unfold State.memWrite; split <;> rfl
@[simp] theorem State.memWrite_convOut : (s.memWrite off v).convOut = s.convOut := by
  unfold State.memWrite; split <;> rfl
@[simp] theorem State.memWrite_inputs : (s.memWrite off v).inputs = s.inputs := by
  unfold State.memWrite; split <;> rfl
@[simp] theorem State.memWrite_trace : (s.memWrite off v).trace = s.trace := by
  unfold State.memWrite; split <;> rfl

end

section
variable (s : State)

@[simp] theorem State.resetBlock_block : s.resetBlock.block = Block.reset := rfl
@[simp] theorem State.resetBlock_handler : s.resetBlock.handler = s.handler := rfl
@[simp] theorem State.resetBlock_convOut : s.resetBlock.convOut = s.convOut := rfl
@[simp] theorem State.resetBlock_inputs : s.resetBlock.inputs = s.inputs := rfl
@[simp] theorem State.resetBlock_trace : s.resetBlock.trace = s.trace ++ [.reset] := rfl

@[simp] theorem State.takeInput_block : s.takeInput.block = s.block := rfl
@[simp] theorem State.takeInput_handler : s.takeInput.handler = s.handler := rfl
@[simp] theorem State.takeInput_convOut : s.takeInput.convOut = s.convOut := rfl
@[simp] theorem State.takeInput_trace : s.takeInput.trace = s.trace := rfl
@[simp] theorem State.takeInput_inputs : s.takeInput.inputs = s.inputs.tail := rfl

end

end Sys2Proof.Machine
end

