-- ==== Sys2Proof/Laws/Frame.lean ====
section
/-! SUPPORT. The frame space and the coil bank: a read after a write to the same place gives the value written, and
a write leaves every other place alone (spec/20_memory.md R54, R55). -/

namespace Sys2Proof.Machine

theorem State.memRead_memWrite (s : State) (off off' : Offset) (v : Byte) :
    (s.memWrite off v).memRead off' = if off' = off then v else s.memRead off' := by
  have ho := off.isLt
  have ho' := off'.isLt
  by_cases h : off' = off
  · subst h
    by_cases h6 : off'.val < 6 <;> simp [State.memRead, State.memWrite, h6]
  · have hne : off.val ≠ off'.val := fun e => h (Fin.ext e.symm)
    by_cases h6 : off.val < 6 <;> by_cases h6' : off'.val < 6 <;>
      simp [State.memRead, State.memWrite, h6, h6', h, hne]
    omega

@[simp] theorem State.memRead_memWrite_same (s : State) (off : Offset) (v : Byte) :
    (s.memWrite off v).memRead off = v := by simp [State.memRead_memWrite]

theorem State.memRead_memWrite_other (s : State) {off off' : Offset} (v : Byte) (h : off' ≠ off) :
    (s.memWrite off v).memRead off' = s.memRead off' := by simp [State.memRead_memWrite, h]

/-- `FRAME[m]` is the byte of `SPEED[m]` (R23). -/
theorem State.memRead_speed (s : State) (m : Motor) : s.memRead ⟨m.val, by omega⟩ = s.block.speed[m] := by
  simp [State.memRead]

/-- `FRAME[6]` is `FLAG` (R23). -/
theorem State.memRead_flag (s : State) : s.memRead 6 = s.block.flag := by simp [State.memRead]

/-- Two blocks with the same bytes in the frame have the same speeds and flag. -/
theorem State.frame_ext {s t : State} (h : ∀ off, s.memRead off = t.memRead off) :
    s.block.speed = t.block.speed ∧ s.block.flag = t.block.flag := by
  constructor
  · refine Vector.ext fun i hi => ?_
    have := h ⟨i, by omega⟩
    simpa [State.memRead, hi] using this
  · have := h 6
    simpa [State.memRead] using this

theorem State.setCoil_getElem (s : State) (m m' : Motor) (pattern : Pattern) :
    (s.setCoil m pattern).block.coil[m'] = if m' = m then pattern else s.block.coil[m'] := by
  by_cases h : m' = m
  · subst h; simp
  · have : m.val ≠ m'.val := fun e => h (Fin.ext e.symm)
    simp [h, this]

@[simp] theorem State.setCoil_getElem_same (s : State) (m : Motor) (pattern : Pattern) :
    (s.setCoil m pattern).block.coil[m] = pattern := by rw [State.setCoil_getElem, if_pos rfl]

theorem State.setCoil_getElem_other (s : State) {m m' : Motor} (pattern : Pattern) (h : m' ≠ m) :
    (s.setCoil m pattern).block.coil[m'] = s.block.coil[m'] := by
  rw [State.setCoil_getElem, if_neg h]

end Sys2Proof.Machine
end

