-- ==== Sys2Proof/Laws/Ops.lean ====
section
/-! SUPPORT. One lemma per shared operation: everything it can do. -/

namespace Sys2Proof.Machine

/-! ### Acceptance (R100) and enabling -/

theorem State.accept_idle {s : State} (effect : State → State) (h : s.block.pos.state = .idle) :
    s.accept effect = effect s := if_pos h

theorem State.accept_not_idle {s : State} (effect : State → State) (h : s.block.pos.state ≠ .idle) :
    s.accept effect = s := if_neg h

theorem State.when_true {s : State} {b : Bool} (effect : State → State) (h : b = true) :
    s.when b effect = effect s := if_pos h

theorem State.when_false {s : State} {b : Bool} (effect : State → State) (h : b = false) :
    s.when b effect = s := if_neg (by simp [h])

theorem State.evaluating_iff (s : State) (m : Motor) :
    s.evaluating m = true ↔
      s.block.pos.state = .cycling ∧ s.block.pos.m = m ∧ s.block.pos.k = 0 ∧ s.block.pos.w = false := by
  simp [State.evaluating, and_assoc]

theorem State.mayWritePhase_iff (s : State) (m : Motor) :
    s.mayWritePhase m = true ↔
      s.block.pos.state = .cycling ∧ s.block.pos.m = m ∧ s.block.pos.k.val < 4 ∧ s.block.pos.w = false := by
  simp [State.mayWritePhase, and_assoc]

theorem State.receiving_iff (s : State) :
    s.receiving = true ↔ s.handler.cmds = [] ∧ s.block.pos.state = .idle := by
  simp [State.receiving]

/-! ### Advance (R146, R147) -/

theorem Position.advance_motor (p : Position) (h : p.m.val < 5) :
    p.advance = { p with m := p.m + 1, k := 0, w := false } := by simp [Position.advance, h]

theorem Position.advance_tick (p : Position) (hm : p.m = 5) (ht : p.t.toNat < Config.maxCycles) :
    p.advance = { p with t := p.t + 1, m := 0, k := 0, w := false } := by simp [Position.advance, hm, ht]

theorem Position.advance_exit (p : Position) (hm : p.m = 5) (ht : Config.maxCycles ≤ p.t.toNat) :
    p.advance = .idle := by simp [Position.advance, hm, Nat.not_lt.mpr ht]

/-- Everything `advance` can do: it writes the position only. -/
theorem State.advance_spec (s : State) :
    s.advance = { s with block.pos := s.block.pos.advance } := rfl

/-! ### The sequencer (R161, R162, R165) -/

@[simp] theorem State.writePhase_pos (s : State) (m : Motor) (p : Phase) :
    (s.writePhase m p).block.pos = { s.block.pos with k := s.block.pos.k + 1, w := true } := rfl

@[simp] theorem State.writePhase_trace (s : State) (m : Motor) (p : Phase) :
    (s.writePhase m p).trace = s.trace ++ [.write m (onehot p)] := rfl

theorem State.writePhase_coil (s : State) (m m' : Motor) (p : Phase) :
    (s.writePhase m p).block.coil[m'] = if m' = m then onehot p else s.block.coil[m'] :=
  State.setCoil_getElem s m m' (onehot p)

/-- Everything else a phase write leaves as it was. -/
theorem State.writePhase_frame (s : State) (m : Motor) (p : Phase) :
    (s.writePhase m p).block.speed = s.block.speed ∧ (s.writePhase m p).block.flag = s.block.flag ∧
      (s.writePhase m p).block.cad = s.block.cad ∧ (s.writePhase m p).handler = s.handler ∧
      (s.writePhase m p).convOut = s.convOut ∧ (s.writePhase m p).inputs = s.inputs :=
  ⟨rfl, rfl, rfl, rfl, rfl, rfl⟩

@[simp] theorem State.writeStop_pos (s : State) (m : Motor) :
    (s.writeStop m).block.pos = s.block.pos.advance := rfl

@[simp] theorem State.writeStop_trace (s : State) (m : Motor) :
    (s.writeStop m).trace = s.trace ++ [.write m 0] := rfl

theorem State.writeStop_coil (s : State) (m m' : Motor) :
    (s.writeStop m).block.coil[m'] = if m' = m then 0 else s.block.coil[m'] :=
  State.setCoil_getElem s m m' 0

/-- Everything else a stop leaves as it was. -/
theorem State.writeStop_frame (s : State) (m : Motor) :
    (s.writeStop m).block.speed = s.block.speed ∧ (s.writeStop m).block.flag = s.block.flag ∧
      (s.writeStop m).block.cad = s.block.cad ∧ (s.writeStop m).handler = s.handler ∧
      (s.writeStop m).convOut = s.convOut ∧ (s.writeStop m).inputs = s.inputs :=
  ⟨rfl, rfl, rfl, rfl, rfl, rfl⟩

/-- Everything a delay completion can do: one event, and the position, which advances after the fourth phase. -/
theorem State.completeDelay_spec (s : State) :
    s.completeDelay =
      (s.emit .delay).setPos
        (if s.block.pos.k = 4 then s.block.pos.advance else { s.block.pos with w := false }) := by
  unfold State.completeDelay; split <;> rfl

/-! ### Commands -/

/-- Everything a `WRB` can do: one frame byte, in Idle. -/
theorem State.wrb_spec (s : State) (off : Offset) (val : Byte) :
    s.wrb off val = if s.block.pos.state = .idle then s.memWrite off val else s := rfl

@[simp] theorem State.wrb_pos (s : State) (off : Offset) (val : Byte) :
    (s.wrb off val).block.pos = s.block.pos := by
  rw [State.wrb_spec]; split <;> simp

/-! ### The handler -/

@[simp] theorem Handler.issue_cmds (h : Handler) (words : List CmdWord) :
    (h.issue words).cmds = h.cmds ++ words := rfl

@[simp] theorem Handler.issue_phase (h : Handler) (words : List CmdWord) : (h.issue words).phase = h.phase := rfl

/-- Everything the end of an iteration can do: Connected-Idle, and one `RUN` as the policy says. -/
theorem Handler.endIteration_spec (h : Handler) (complete : Bool) :
    h.endIteration complete =
      { h with
        phase := .connectedIdle
        cmds := h.cmds ++ (if h.policy = .always ∨ complete then [runWord] else []) } := by
  unfold Handler.endIteration Handler.issue
  split
  · rfl
  · simp

theorem Handler.receivePayloadByte_spec (h : Handler) (j : Offset) (b : Byte) :
    h.receivePayloadByte j b =
      { h with phase := .awaitingPayload (j.val + 1), cmds := h.cmds ++ [wrbWord j b] } := rfl

/-- Everything a receive of a payload can do: one byte taken and written, the payload ended short, or ended complete. -/
theorem Handler.receivePayload_cases (h : Handler) (received : Nat) :
    (∃ (room : received < 7) (b : Byte) (rest : List WireEvent), h.rx = .byte b :: rest ∧
      h.receivePayload received =
        { h with
          phase := .awaitingPayload (received + 1)
          cmds := h.cmds ++ [wrbWord ⟨received, room⟩ b]
          rx := rest }) ∨
    (received < 7 ∧ (∀ b rest, h.rx ≠ .byte b :: rest) ∧
      h.receivePayload received = { h with rx := h.rx.tail }.endIteration false) ∨
    (7 ≤ received ∧
      h.receivePayload received = h.endIteration (h.pending == some motorByte && received == payloadLength)) := by
  unfold Handler.receivePayload
  by_cases room : received < payloadLength
  · rw [dif_pos room]
    split
    · rename_i b rest hx
      exact .inl ⟨room, b, rest, hx, rfl⟩
    · rename_i hx
      exact .inr (.inl ⟨room, hx, rfl⟩)
  · rw [dif_neg room]
    exact .inr (.inr ⟨Nat.le_of_not_lt room, rfl⟩)

/-! ### Which part of the system each operation leaves alone -/

/-- The wire operations do not touch the block: the handler acts on it only through the commands it issues. -/
theorem exec_wire_block {i : Instr} {s t : State}
    (hi : i = .connect ∨ (∃ p, i = .motor p) ∨ ∃ b, i = .otherWire b) (h : exec i s = .next t) :
    t.block = s.block := by
  rcases hi with rfl | ⟨p, rfl⟩ | ⟨b, rfl⟩ <;>
    (simp only [exec, execConnect, execMotor, execOtherWire, State.when] at h; cases h; split <;> rfl)

end Sys2Proof.Machine
end

