-- ==== Sys2Proof/Laws/PerInstr.lean ====
section
/-! SUPPORT. For every operation: its encoding is in the format of its row of spec/opcode_table.json, and has the
row's fixed bits (the row's match under its mask). -/

namespace Sys2Proof.Laws.TableRow

/-- A row's format with its match and mask; a row without a mask has mask 0. -/
inductive Row where
  | cmd (matchBits mask : CmdWord)
  | frame (matchBits mask : CmdWord)
  | speed
  | cad (matchBits mask : Byte)
  | coil
  | wire (matchBits mask : Byte)

/-- The row of each operation, as the table writes it. -/
def rowOf : Instr → Row
  | .nop => .cmd 0x0000 0x1800
  | .wrb _ _ => .cmd 0x0800 0x1800
  | .wrb7 _ => .cmd 0x0F00 0x1F00
  | .run => .cmd 0x1000 0x1800
  | .fatal => .cmd 0x1800 0x1800
  | .loadframe _ _ => .frame 0x0800 0x1800
  | .conv _ => .speed
  | .stop _ => .cad 0x00 0xFF
  | .stepf _ _ => .cad 0x00 0x80
  | .stepr _ _ => .cad 0x80 0x80
  | .hold _ _ => .cad 0x00 0x00
  | .phase _ _ => .coil
  | .connect => .wire 0xB9 0xFF
  | .motor _ => .wire 0xA8 0xFF
  | .otherWire _ => .wire 0x00 0x00

/-- An encoded value is in the row's format with the row's fixed bits. -/
def fits : Row → Encoded → Bool
  | .cmd b mask, .cmd w => w &&& mask == b
  | .frame b mask, .cmds ws => ws.length == 7 && ws.all fun w => w &&& mask == b
  | .speed, .speed _ => true
  | .cad b mask, .cad c => c &&& mask == b
  | .coil, .coil p => p == 1 || p == 2 || p == 4 || p == 8
  | .wire b mask, .wire (.byte first :: _) => first &&& mask == b
  | _, _ => false

/-- The encoding of a well-formed operation fits its row. -/
def Statement (i : Instr) : Prop := i.wellFormed = true → fits (rowOf i) (encode i) = true

/-- The operation bits of a command word (R75). -/
theorem cmdWord_and_op (op : BitVec 2) (off : BitVec 3) (val : Byte) :
    cmdWord op off val &&& 0x1800 = op ++ 0#11 := by
  unfold cmdWord
  ext i hi
  simp only [BitVec.getElem_and, BitVec.getElem_append]
  interval_cases i <;> simp

/-- The operation and offset bits of a command word (R75). -/
theorem cmdWord_and_op_off (op : BitVec 2) (off : BitVec 3) (val : Byte) :
    cmdWord op off val &&& 0x1F00 = op ++ off ++ 0#8 := by
  unfold cmdWord
  ext i hi
  simp only [BitVec.getElem_and, BitVec.getElem_append]
  interval_cases i <;> simp

theorem wrbWord_and_op (off : Offset) (val : Byte) : wrbWord off val &&& 0x1800#13 = 0x0800#13 :=
  cmdWord_and_op 1 (BitVec.ofNat 3 off.val) val

theorem nop : Statement .nop := fun _ => rfl

theorem wrb (off : Offset) (val : Byte) : Statement (.wrb off val) := fun _ => by
  simp [rowOf, encode, fits, wrbWord_and_op]

theorem wrb7 (val : Byte) : Statement (.wrb7 val) := fun _ => by
  simp only [rowOf, encode, fits, cmdWord_and_op_off]
  decide

theorem run : Statement .run := fun _ => rfl

theorem fatal : Statement .fatal := fun _ => rfl

theorem loadframe (v : Vector Byte 6) (f : Byte) : Statement (.loadframe v f) := fun _ => by
  simp [rowOf, encode, fits, frameWords, wrbWord_and_op]

theorem conv (v : Byte) : Statement (.conv v) := fun _ => rfl

theorem stop (m : Motor) : Statement (.stop m) := fun _ => rfl

theorem bit7_clear (c : Byte) : (c &&& 0x80 == 0x00) = !c.msb := by revert c; decide

theorem bit7_set (c : Byte) : (c &&& 0x80 == 0x80) = c.msb := by revert c; decide

theorem stepf (m : Motor) (c : Byte) : Statement (.stepf m c) := fun h => by
  simp only [Instr.wellFormed, Bool.and_eq_true] at h
  rw [rowOf, encode, fits, bit7_clear]
  exact h.1

theorem stepr (m : Motor) (c : Byte) : Statement (.stepr m c) := fun h => by
  rw [rowOf, encode, fits, bit7_set]
  exact h

theorem hold (m : Motor) (c : Byte) : Statement (.hold m c) := fun _ => by simp [rowOf, encode, fits]

theorem phase (m : Motor) (p : Phase) : Statement (.phase m p) := fun _ => by
  match p with
  | 0 => rfl
  | 1 => rfl
  | 2 => rfl
  | 3 => rfl

theorem connect : Statement .connect := fun _ => rfl

theorem motor (payload : List Byte) : Statement (.motor payload) := fun _ => rfl

theorem otherWire (b : Byte) : Statement (.otherWire b) := fun _ => by simp [rowOf, encode, fits]

end Sys2Proof.Laws.TableRow
end

