-- ==== Sys2Proof/Laws/Step.lean ====
section
/-! SUPPORT. Once for all, what a step can do: an event of the outside, an operation that is fetched and decoded, or
a step that is no operation of the table. -/

namespace Sys2Proof.Machine

/-- A payload of at most `room` bytes is one the decoder reads back. -/
theorem decodePayload_payloadEvents {payload : List Byte} {room : Nat} (h : payload.length ≤ room) :
    decodePayload room (payloadEvents payload) = some payload := by
  induction payload generalizing room with
  | nil => cases room <;> rfl
  | cons b rest ih =>
    cases room with
    | zero => simp at h
    | succ n =>
      have := ih (room := n) (by simpa using h)
      simp only [payloadEvents] at this
      simp [payloadEvents, decodePayload, this]

theorem takePayload_length (room : Nat) (rx : List WireEvent) : (takePayload room rx).1.length ≤ room := by
  induction room generalizing rx with
  | zero => simp [takePayload]
  | succ n ih =>
    match rx with
    | [] => simp [takePayload]
    | .timeout :: rest => simp [takePayload]
    | .error :: rest => simp [takePayload]
    | .byte b :: rest => simpa [takePayload] using ih rest

/-- What is looked at as a payload stays on the line: put back before what follows, it is the line as it was. -/
theorem takePayload_append (room : Nat) (rx : List WireEvent) :
    payloadEvents (takePayload room rx).1 ++ (takePayload room rx).2 = rx := by
  induction room generalizing rx with
  | zero => simp [takePayload, payloadEvents]
  | succ n ih =>
    match rx with
    | [] => simp [takePayload, payloadEvents]
    | .timeout :: rest => simp [takePayload, payloadEvents]
    | .error :: rest => simp [takePayload, payloadEvents]
    | .byte b :: rest =>
      have := ih rest
      simp only [payloadEvents] at this
      simp [takePayload, payloadEvents, this]

/-- What a payload is, on a line that goes on: the bytes up to `room`, or fewer, if no byte follows. -/
theorem takePayload_eq {payload : List Byte} {room : Nat} {rest : List WireEvent} (h : payload.length ≤ room)
    (hr : payload.length < room → ∀ b r, rest ≠ .byte b :: r) :
    takePayload room (payload.map .byte ++ rest) = (payload, rest) := by
  induction payload generalizing room with
  | nil =>
    cases room with
    | zero => simp [takePayload]
    | succ n =>
      match rest, hr with
      | [], _ => simp [takePayload]
      | .timeout :: r, _ => simp [takePayload]
      | .error :: r, _ => simp [takePayload]
      | .byte b :: r, hr => exact absurd rfl (hr (by simp) b r)
  | cons b rest' ih =>
    cases room with
    | zero => simp at h
    | succ n => simp [takePayload, ih (room := n) (by simpa using h) (by simpa using hr)]

/-- Every wire message the receiver takes off the line is one the decoder reads (R80). -/
theorem wireMessage_decodes {phase : HandlerPhase} {rx events rest : List WireEvent}
    (h : wireMessage phase rx = some (events, rest)) : ∃ i, decodeWire phase events = some i := by
  match phase, rx, h with
  | .disconnected, .byte b :: r, h =>
    simp only [wireMessage, Option.some.injEq, Prod.mk.injEq] at h
    obtain ⟨rfl, -⟩ := h
    exact ⟨_, rfl⟩
  | .connectedIdle, .byte b :: r, h =>
    simp only [wireMessage] at h
    split at h
    · rename_i hb
      simp only [Option.some.injEq, Prod.mk.injEq] at h
      obtain ⟨rfl, -⟩ := h
      have hd := decodePayload_payloadEvents (takePayload_length payloadLength r)
      exact ⟨.motor (takePayload payloadLength r).1, by simp only [decodeWire, hb, if_true, hd, Option.map_some]⟩
    · rename_i hb
      simp only [Option.some.injEq, Prod.mk.injEq] at h
      obtain ⟨rfl, -⟩ := h
      exact ⟨.otherWire b, by simp [decodeWire, hb]⟩

theorem decodeCoil_onehot (m : Motor) (p : Phase) : decodeCoil m (onehot p) = some (.phase m p) := by
  match p with
  | 0 => rfl
  | 1 => rfl
  | 2 => rfl
  | 3 => rfl

/-- What is fetched, and the state it is fetched from: the four cases of `State.fetch`. -/
theorem State.fetch_cases {s t : State} {inp : Input} {e : Encoded} (h : s.fetch inp = some (e, t)) :
    (s.block.pos.state = .cycling ∧ s.block.pos.w = false ∧ s.block.pos.k = 0 ∧ t = s ∧
      e = .cad s.block.cad[s.block.pos.m]) ∨
    (s.block.pos.state = .cycling ∧ s.block.pos.w = false ∧ s.block.pos.k ≠ 0 ∧ s.block.pos.k.val < 4 ∧ t = s ∧
      e = .coil (onehot s.nextPhase)) ∨
    (∃ word rest, s.block.pos.state = .idle ∧ inp.cmdValid = true ∧ s.handler.cmds = word :: rest ∧
      t = s.setHandler { s.handler with cmds := rest } ∧ e = .cmd word) ∨
    (∃ events rest, s.block.pos.state = .idle ∧ s.handler.cmds = [] ∧
      wireMessage s.handler.phase s.handler.rx = some (events, rest) ∧
      t = s.setHandler { s.handler with rx := rest } ∧ e = .wire events) := by
  unfold State.fetch at h
  split at h
  · rename_i hs
    split at h
    · simp at h
    · rename_i hw
      split at h
      · rename_i hk
        simp only [Option.some.injEq, Prod.mk.injEq] at h
        exact .inl ⟨hs, by simpa using hw, hk, h.2.symm, h.1.symm⟩
      · rename_i hk
        split at h
        · rename_i hk4
          simp only [Option.some.injEq, Prod.mk.injEq] at h
          exact .inr (.inl ⟨hs, by simpa using hw, hk, hk4, h.2.symm, h.1.symm⟩)
        · simp at h
  · rename_i word rest hs hc
    split at h
    · rename_i hv
      simp only [Option.some.injEq, Prod.mk.injEq] at h
      exact .inr (.inr (.inl ⟨word, rest, hs, hv, hc, h.2.symm, h.1.symm⟩))
    · simp at h
  · simp at h
  · rename_i hs hc
    split at h
    · rename_i events rest hm
      simp only [Option.some.injEq, Prod.mk.injEq] at h
      exact .inr (.inr (.inr ⟨events, rest, hs, hc, hm, h.2.symm, h.1.symm⟩))
    · simp at h

/-- What is fetched always decodes: no step stops for want of a decoding. -/
theorem State.fetch_decodes {s t : State} {inp : Input} {e : Encoded} (h : s.fetch inp = some (e, t)) :
    ∃ i, decode t.decodeCtx e = some i := by
  rcases State.fetch_cases h with ⟨-, -, -, -, rfl⟩ | ⟨-, -, -, -, rfl, rfl⟩ | ⟨w, r, -, -, -, -, rfl⟩ |
    ⟨ev, r, -, -, hm, rfl, rfl⟩
  · exact ⟨_, rfl⟩
  · exact ⟨_, decodeCoil_onehot _ _⟩
  · exact ⟨_, rfl⟩
  · exact wireMessage_decodes hm

/-- Everything a step can do. -/
theorem step_cases {s t : State} (h : step s = .next t) :
    (s.takeInput.outside s.input = some t) ∨
    (s.takeInput.outside s.input = none ∧ ∃ e u i, s.takeInput.fetch s.input = some (e, u) ∧
      decode u.decodeCtx e = some i ∧ exec i u = .next t) ∨
    (s.takeInput.outside s.input = none ∧ s.takeInput.fetch s.input = none ∧
      t = s.takeInput.otherStep s.input) := by
  unfold step at h
  split at h
  · rename_i u hu
    cases h
    exact .inl hu
  · rename_i ho
    split at h
    · rename_i e u hf
      obtain ⟨i, hi⟩ := State.fetch_decodes hf
      rw [hi] at h
      exact .inr (.inl ⟨ho, e, u, i, hf, hi, h⟩)
    · rename_i hf
      cases h
      exact .inr (.inr ⟨ho, hf, rfl⟩)

/-- Without an event of the outside, the block, the handler or the time base makes the step. -/
theorem State.outside_eq_none (s : State) {inp : Input} (hr : inp.rst = false) (hs : inp.restart = false)
    (hg : inp.giveUp = false) : s.outside inp = none := by
  simp [State.outside, hr, hs, hg]

/-- Everything a step that is no operation of the table can do: complete the delay in flight, make a step of the
free handler, or wait. -/
theorem State.otherStep_cases (s : State) (inp : Input) :
    (s.block.pos.state = .cycling ∧ s.block.pos.w = true ∧ inp.delayDone = true ∧
      s.otherStep inp = s.completeDelay) ∨
    (s.block.pos.state = .idle ∧ s.handler.cmds = [] ∧ s.otherStep inp = s.setHandler s.handler.loopStep) ∨
    s.otherStep inp = s := by
  cases hs : s.block.pos.state <;> simp only [State.otherStep, hs]
  · cases hc : s.handler.cmds <;> simp
  · cases hw : s.block.pos.w <;> cases hd : inp.delayDone <;> simp
  · simp

/-- A wire message decodes to one of the three wire operations. -/
theorem decodeWire_cases {phase : HandlerPhase} {events : List WireEvent} {i : Instr}
    (h : decodeWire phase events = some i) : i = .connect ∨ (∃ p, i = .motor p) ∨ ∃ b, i = .otherWire b := by
  unfold decodeWire at h
  split at h
  · simp only [Option.some.injEq] at h
    split at h
    · exact .inl h.symm
    · exact .inr (.inr ⟨_, h.symm⟩)
  · split at h
    · obtain ⟨p, -, rfl⟩ := Option.map_eq_some_iff.mp h
      exact .inr (.inl ⟨p, rfl⟩)
    · split at h
      · simp only [Option.some.injEq] at h
        exact .inr (.inr ⟨_, h.symm⟩)
      · simp at h
  · simp at h

/-- The three events of the outside (R205: reset first). -/
theorem State.outside_cases {s t : State} {inp : Input} (h : s.outside inp = some t) :
    (inp.rst = true ∧ t = s.resetBlock) ∨ (inp.rst = false ∧ inp.restart = true ∧ t = s.restartHost) ∨
      (inp.rst = false ∧ inp.restart = false ∧ inp.giveUp = true ∧ t = s.giveUp) := by
  unfold State.outside at h
  split at h
  · exact .inl ⟨‹_›, by simpa using h.symm⟩
  · split at h
    · exact .inr (.inl ⟨by simpa using ‹¬inp.rst = true›, ‹_›, by simpa using h.symm⟩)
    · split at h
      · exact .inr (.inr ⟨by simpa using ‹¬inp.rst = true›, by simpa using ‹¬inp.restart = true›, ‹_›,
          by simpa using h.symm⟩)
      · simp at h

/-- A free handler with a message on its wire: the step is that message's operation, the message taken off. -/
theorem step_of_wireMessage {s : State} {events rest : List WireEvent} {i : Instr} (hr : s.input.rst = false)
    (hs : s.input.restart = false) (hg : s.input.giveUp = false) (hi : s.block.pos.state = .idle)
    (hc : s.handler.cmds = []) (hm : wireMessage s.handler.phase s.handler.rx = some (events, rest))
    (hd : decodeWire s.handler.phase events = some i) :
    step s = exec i { s with inputs := s.inputs.tail, handler.rx := rest } := by
  have hf : s.takeInput.fetch s.input =
      some (.wire events, { s with inputs := s.inputs.tail, handler.rx := rest }) := by
    simp [State.takeInput, State.setInputs, State.fetch, hi, hc, hm, State.setHandler]
  simp [step, State.outside_eq_none _ hr hs hg, hf, decode, State.decodeCtx, hd]

end Sys2Proof.Machine
end

