-- ==== Sys2Proof/Laws/RunEnd.lean ====
section
/-! SUPPORT. The end of a run (spec/60_exceptions.md R213): a state in a cycle is never final, and a run that has ended
stays so. -/

namespace Sys2Proof.Machine

theorem State.runEnded_iff (s : State) :
    s.runEnded = true ↔ s.handler.cmds = [] ∧ s.block.pos.w = false ∧
      (s.block.pos.state = .halted ∨ (s.block.pos.state = .idle ∧ s.handler.mayIssue = false)) := by
  cases hs : s.block.pos.state <;> simp [State.runEnded, State.noFurtherCommand, hs]
  tauto

/-- "A state with `STATE = Cycling` is never final". -/
theorem State.runEnded_of_cycling {s : State} (h : s.block.pos.state = .cycling) : s.runEnded = false := by
  simp [State.runEnded, h]

/-- In a cycle "either the sequencer or the time base has a step": the sequencer's is an operation that is fetched, the
time base's is the completion of the delay in flight. -/
theorem State.cycling_has_a_step {s : State} (inp : Input) (h : s.block.pos.state = .cycling)
    (hl : s.block.pos.legal = true) : s.block.pos.w = true ∨ ∃ e t, s.fetch inp = some (e, t) := by
  cases hw : s.block.pos.w
  · right
    by_cases hk : s.block.pos.k = 0
    · simp [State.fetch, h, hw, hk]
    · have hk4 : s.block.pos.k.val < 4 := by
        simp [Position.legal, h, hw, hk] at hl
        omega
      simp [State.fetch, h, hw, hk, hk4]
  · exact .inl rfl

/-- An ended run stays ended, however long the outside only presents and completes: a step changes neither the block nor
the trace. -/
theorem step_of_runEnded {s : State} (he : s.runEnded = true) (hr : s.input.rst = false)
    (hs : s.input.restart = false) (hg : s.input.giveUp = false) :
    ∃ t, step s = .next t ∧ t.block = s.block ∧ t.trace = s.trace ∧ t.inputs = s.inputs.tail ∧
      t.runEnded = true := by
  obtain ⟨hc, hw, hh | ⟨hi, hm⟩⟩ := s.runEnded_iff.mp he
  · exact ⟨{ s with inputs := s.inputs.tail },
      by simp [step, State.outside, hr, hs, hg, State.takeInput, State.setInputs, State.fetch, hh, State.otherStep],
      rfl, rfl, rfl, by simp [State.runEnded_iff, hc, hw, hh]⟩
  · have key : ∃ h : Handler, step s = .next { s with inputs := s.inputs.tail, handler := h } ∧ h.cmds = [] ∧
        h.mayIssue = false := by
      match hph : s.handler.phase, hx : s.handler.rx with
      | .disconnected, .byte b :: rest =>
        obtain ⟨hb, hrest⟩ : connectByte ≠ b ∧ .byte connectByte ∉ rest := by
          simpa [Handler.mayIssue, hph, hx] using hm
        exact ⟨{ s.handler with rx := rest }, by
          rw [step_of_wireMessage (i := .otherWire b) (rest := rest) (events := [.byte b]) hr hs hg hi hc
            (by simp [wireMessage, hph, hx]) (by simp [decodeWire, hph, hb.symm])]
          simp [exec, execOtherWire, State.when, State.receiving, Handler.receiveByte, State.setHandler, hi, hc, hph,
            hb.symm],
          hc, by simp [Handler.mayIssue, hph, hrest]⟩
      | .connectedIdle, .byte b :: rest =>
        obtain ⟨hpol, hb, hrest⟩ :
            s.handler.policy ≠ .always ∧ motorByte ≠ b ∧ .byte motorByte ∉ rest := by
          simpa [Handler.mayIssue, hph, hx] using hm
        exact ⟨{ s.handler with rx := rest, pending := some b }, by
          rw [step_of_wireMessage (i := .otherWire b) (rest := rest) (events := [.byte b]) hr hs hg hi hc
            (by simp [wireMessage, hph, hx, hb.symm]) (by simp [decodeWire, hph, hb.symm])]
          simp [exec, execOtherWire, State.when, State.receiving, Handler.receiveByte, Handler.endIteration,
            State.setHandler, hi, hc, hph, hb.symm, hpol],
          hc, by simp [Handler.mayIssue, hph, hrest, hpol]⟩
      | .awaitingPayload _, _ => simp [Handler.mayIssue, hph] at hm
      | .disconnected, [] | .disconnected, .timeout :: _ | .disconnected, .error :: _
      | .connectedIdle, [] | .connectedIdle, .timeout :: _ | .connectedIdle, .error :: _ =>
        refine ⟨s.handler.loopStep, ?_, ?_, ?_⟩ <;>
        simp_all [step, State.outside, State.takeInput, State.setInputs, State.fetch, wireMessage, State.otherStep,
          State.setHandler, Handler.loopStep, Handler.endIteration, Handler.mayIssue]
    obtain ⟨h, ht, hcmds, hmay⟩ := key
    exact ⟨_, ht, rfl, rfl, rfl, by simp [State.runEnded_iff, hcmds, hw, hi, hmay]⟩

/-- A run that has ended stays so for ever under a quiet outside. -/
theorem run_of_runEnded (n : Nat) {s : State} (he : s.runEnded = true) (hq : s.inputs = []) :
    ∃ t, Sys2Proof.core.run n s = .next t ∧ t.block = s.block ∧ t.trace = s.trace ∧ t.runEnded = true := by
  induction n generalizing s with
  | zero => exact ⟨s, rfl, rfl, rfl, he⟩
  | succ n ih =>
    have hin : s.input = .quiet := by simp [State.input, hq]
    obtain ⟨u, hu, hb, ht, hi, hue⟩ := step_of_runEnded he (by rw [hin]; rfl) (by rw [hin]; rfl) (by rw [hin]; rfl)
    obtain ⟨t, hrun, hb', ht', hte⟩ := ih hue (by simp [hi, hq])
    exact ⟨t, by simp only [Host.Core.run, core, hu]; exact hrun, hb'.trans hb, ht'.trans ht, hte⟩

end Sys2Proof.Machine
end

