-- ==== Sys2Proof/Tests/Slice0.lean ====
section
/-! SUPPORT. Small tests. Expected values come from spec/95_test_vectors.md (the vector is named) or are worked out by
hand from the rule named. At the end, for every obligation with hypotheses, a state and operands that meet them. -/

namespace Sys2Proof.Tests

open Sys2Proof.Machine

/-! ### Helpers -/

/-- The next state of an outcome. -/
def next : Host.Outcome State Fault Refusal → Option State
  | .next s => some s
  | .fault _ => none
  | .refused _ => none

/-- The block after an outcome. -/
def blockAfter (o : Host.Outcome State Fault Refusal) : Option Block := (next o).map (·.block)

/-- The trace after an outcome. -/
def traceAfter (o : Host.Outcome State Fault Refusal) : Option (List Event) := (next o).map (·.trace)

/-- The handler after an outcome. -/
def handlerAfter (o : Host.Outcome State Fault Refusal) : Option Handler := (next o).map (·.handler)

/-- A cycle at position `(Cycling, t, m, k, w)` with all cadences `c` and all coils off. -/
def at_ (t : Byte) (m : Motor) (k : Fin 5) (w : Bool) (c : Byte) : State :=
  { State.reset with block := { Block.reset with cad := .replicate 6 c, pos := ⟨.cycling, t, m, k, w⟩ } }

/-- A connected handler with these events on its wire. -/
def connected (rx : List WireEvent) : State :=
  { State.reset with handler := { Handler.initial with phase := .connectedIdle, rx := rx } }

/-- A handler that has received `n` payload bytes, with these events on its wire. -/
def awaiting (n : Nat) (rx : List WireEvent) : State :=
  { State.reset with handler :=
      { Handler.initial with phase := .awaitingPayload n, pending := some 0xA8, rx := rx } }

/-- The reset state with these commands to be presented. -/
def issued (cmds : List CmdWord) : State :=
  { State.reset with handler := { Handler.initial with cmds := cmds } }

/-! ### Well-formedness: an ill-formed term for each check -/

theorem test_wf_stepf_refuses_zero : (Instr.stepf 0 0x00).wellFormed = false := by decide
theorem test_wf_stepf_refuses_negative : (Instr.stepf 0 0xFF).wellFormed = false := by decide
theorem test_wf_stepr_refuses_positive : (Instr.stepr 0 0x14).wellFormed = false := by decide
theorem test_wf_hold_refuses_zero : (Instr.hold 0 0x00).wellFormed = false := by decide
theorem test_wf_motor_refuses_eight : (Instr.motor [0, 0, 0, 0, 0, 0, 0, 0]).wellFormed = false := by decide
theorem test_wf_motor_accepts_seven : (Instr.motor [0, 0, 0, 0, 0, 0, 0]).wellFormed = true := by decide

/-! ### Decoding: words written out from the encodings -/

/-- R75, vector 3.1: `00` then ignored bits. -/
theorem test_decode_nop : decodeCmd 0b00_111_11111111 = .nop := by decide
/-- R75, vector 3.1: `WRB 1, -100` = `0x099C`. -/
theorem test_decode_wrb : decodeCmd 0b01_001_10011100 = .wrb 1 0x9C := by decide
/-- Vector 3.1: `WRB 6, 0xFF` = `0x0EFF`, the last offset. -/
theorem test_decode_wrb_flag : decodeCmd 0b01_110_11111111 = .wrb 6 0xFF := by decide
/-- R106: offset 7 is reserved. -/
theorem test_decode_wrb7 : decodeCmd 0b01_111_00010010 = .wrb7 0x12 := by decide
/-- Vector 3.1: `0x1234` decodes as `RUN`. -/
theorem test_decode_run : decodeCmd 0b10_010_00110100 = .run := by decide
/-- Vector 3.1: `0x1FFF` decodes as `FATAL`. -/
theorem test_decode_fatal : decodeCmd 0b11_111_11111111 = .fatal := by decide
/-- R105: `LOADFRAME 100, -100, 0, 0, 0, 0, 0x00`. -/
theorem test_decode_loadframe :
    decodeFrame [0x0864, 0x099C, 0x0A00, 0x0B00, 0x0C00, 0x0D00, 0x0E00] =
      some (.loadframe #v[100, 0x9C, 0, 0, 0, 0] 0) := by decide
/-- R105: the words in another order are no `LOADFRAME`. -/
theorem test_decode_loadframe_order :
    decodeFrame [0x099C, 0x0864, 0x0A00, 0x0B00, 0x0C00, 0x0D00, 0x0E00] = none := by decide
theorem test_decode_conv : decode ⟨0, 0, .disconnected⟩ (.speed 0x9C) = some (.conv 0x9C) := by decide
/-- Vectors 3.3. -/
theorem test_select_stop : decodeCad 2 20 0x00 = .stop 2 := by decide
theorem test_select_stepf : decodeCad 0 6 3 = .stepf 0 3 := by decide
theorem test_select_stepr : decodeCad 1 14 0b11111001 = .stepr 1 0xF9 := by decide
theorem test_select_hold : decodeCad 4 19 0b11101100 = .hold 4 0xEC := by decide
theorem test_select_hold_beyond_window : decodeCad 0 20 21 = .hold 0 21 := by decide
/-- The period of -128 is 128, without wrap-around (R12, U18). -/
theorem test_select_minus_128 : decodeCad 0 20 0x80 = .hold 0 0x80 := by decide
/-- R74. -/
theorem test_decode_phase : decodeCoil 5 0b1000 = some (.phase 5 3) := by decide
theorem test_decode_phase_none : decodeCoil 5 0b0011 = none := by decide
/-- R76, R187. -/
theorem test_decode_connect : decodeWire .disconnected [.byte 0b10111001] = some .connect := by decide
theorem test_decode_motor :
    decodeWire .connectedIdle [.byte 0b10101000, .byte 1, .byte 2, .byte 3, .byte 4, .byte 5, .byte 6, .byte 7] =
      some (.motor [1, 2, 3, 4, 5, 6, 7]) := by decide
theorem test_decode_motor_before_handshake :
    decodeWire .disconnected [.byte 0xA8] = some (.otherWire 0xA8) := by decide
theorem test_decode_connect_when_connected :
    decodeWire .connectedIdle [.byte 0xB9] = some (.otherWire 0xB9) := by decide
/-- R81: the words the encoder writes. -/
theorem test_encode_words :
    encode (.wrb 1 0x9C) = .cmd 0x099C ∧ encode .run = .cmd 0x1000 ∧ encode .fatal = .cmd 0x1800 ∧
      encode .nop = .cmd 0x0000 := by decide

/-! ### The opcode table's words, and the step that runs them -/

theorem test_table_words :
    decodeTableWord 16 0x0000 = some .nop ∧ decodeTableWord 16 0x0801 = some (.wrb 0 1) ∧
      decodeTableWord 16 0x0F00 = some (.wrb7 0) ∧ decodeTableWord 16 0x1000 = some .run ∧
      decodeTableWord 16 0x1800 = some .fatal ∧ decodeTableWord 16 0x2000 = none ∧
      decodeTableWord 8 0x00 = some (.stop 0) ∧ decodeTableWord 8 0x14 = some (.stepf 0 0x14) ∧
      decodeTableWord 8 0x80 = some (.stepr 0 0x80) ∧ decodeTableWord 8 0xB9 = some .connect ∧
      decodeTableWord 8 0xA8 = some (.motor [0, 0, 0, 0, 0, 0, 0]) := by decide
theorem test_place_run : blockAfter (step (State.reset.withFetchWord 16 0x1000)) =
    some { Block.reset with pos := .cycleStart } := by decide
theorem test_place_stepf : traceAfter (step (State.reset.withFetchWord 8 0x7F)) = some [.write 0 0b0001] := by decide
theorem test_place_stepr : traceAfter (step (State.reset.withFetchWord 8 0x80)) = some [.write 0 0b1000] := by decide
theorem test_place_motor : handlerAfter (step (State.reset.withFetchWord 8 0xA8)) =
    handlerAfter (exec (.motor [0, 0, 0, 0, 0, 0, 0]) (connected [])) := by decide

/-! ### Commands (vectors K) -/

/-- K1. -/
theorem test_nop : next (exec .nop State.reset) = some State.reset := by decide
/-- K2. -/
theorem test_wrb_speed : blockAfter (exec (.wrb 1 0x9C) State.reset) =
    some { Block.reset with speed := #v[0, 0x9C, 0, 0, 0, 0] } := by decide
/-- K4. -/
theorem test_wrb_flag : blockAfter (exec (.wrb 6 0xFF) State.reset) = some { Block.reset with flag := 0xFF } := by
  decide
/-- K6. -/
theorem test_run : blockAfter (exec .run { State.reset with block.speed := #v[1, 0, 0, 0, 0, 0] }) =
    some { Block.reset with speed := #v[1, 0, 0, 0, 0, 0], cad := #v[20, 0, 0, 0, 0, 0], pos := .cycleStart } := by
  decide
/-- K8. -/
theorem test_wrb_waits_in_cycle : next (exec (.wrb 0 1) (at_ 3 0 0 false 1)) = some (at_ 3 0 0 false 1) := by decide
/-- K11. -/
theorem test_fatal_keeps_coils :
    blockAfter (exec .fatal { State.reset with block.coil := #v[8, 0, 0, 0, 0, 0] }) =
      some { Block.reset with coil := #v[8, 0, 0, 0, 0, 0], pos := .halted } := by decide
/-- K12. -/
theorem test_wrb7 : exec (.wrb7 0x12) State.reset = .refused .reservedWrb7 := rfl
/-- K14. -/
theorem test_loadframe : blockAfter (exec (.loadframe #v[50, 0x80, 127, 0, 0xFF, 100] 1) State.reset) =
    some { Block.reset with speed := #v[50, 0x80, 127, 0, 0xFF, 100], flag := 1 } := by decide

/-! ### The converter (vectors 3.2) -/

theorem test_conv_values :
    convert 0x00 = 0x00 ∧ convert 0x01 = 0x14 ∧ convert 0xFF = 0xEC ∧ convert 0x63 = 0x14 ∧ convert 0x9D = 0xEC ∧
      convert 0x64 = 0x01 ∧ convert 0x9C = 0xFF ∧ convert 0x7F = 0x01 ∧ convert 0x80 = 0xFF := by decide
theorem test_conv_other_parameters :
    convertWith 100 10 99 = 10 ∧ convertWith 65 20 (-65) = -1 ∧ convertWith 127 127 126 = 127 ∧
      convertWith 127 127 (-128) = -1 ∧ convertWith 100 1 50 = 1 := by decide
theorem test_conv_writes_no_register :
    next (exec (.conv 0x9C) State.reset) = some { State.reset with convOut := 0xFF } := by decide

/-! ### Scheduler and sequencer (vectors 3.3 and Q) -/

theorem test_hold_next_tick : (blockAfter (exec (.hold 5 20) (at_ 1 5 0 false 20))).map (·.pos) =
    some ⟨.cycling, 2, 0, 0, false⟩ := by decide
theorem test_hold_ends_cycle : (blockAfter (exec (.hold 5 20) (at_ 20 5 0 false 20))).map (·.pos) =
    some .idle := by decide
/-- Q5. -/
theorem test_stop : (next (exec (.stop 3) { at_ 1 3 0 false 0 with block.coil := #v[0, 0, 0, 8, 0, 0] })).map
    (fun s => (s.block.coil, s.trace, s.block.pos)) =
      some (.replicate 6 0, [.write 3 0], ⟨.cycling, 1, 4, 0, false⟩) := by decide
/-- Q8. -/
theorem test_phase : (next (exec (.phase 0 2) (at_ 1 0 2 false 1))).map
    (fun s => (s.block.coil, s.trace, s.block.pos)) =
      some (#v[4, 0, 0, 0, 0, 0], [.write 0 0b0100], ⟨.cycling, 1, 0, 3, true⟩) := by decide
theorem test_stepf : traceAfter (exec (.stepf 2 1) (at_ 1 2 0 false 1)) = some [.write 2 0b0001] := by decide
/-- Q4: the first reverse write repeats the pattern that is there and is still emitted. -/
theorem test_stepr : traceAfter (exec (.stepr 1 0xFF) { at_ 1 1 0 false 0xFF with block.coil := #v[0, 8, 0, 0, 0, 0] }) =
    some [.write 1 0b1000] := by decide
/-- Position walk of 3.4, fourth delay. -/
theorem test_fourth_delay_advances : (blockAfter (step (at_ 20 0 4 true 20))).map (·.pos) =
    some ⟨.cycling, 20, 1, 0, false⟩ := by decide
/-- Position walk of 3.4, third phase write. -/
theorem test_next_phase : traceAfter (step (at_ 20 0 2 false 20)) = some [.write 0 0b0100] := by decide
theorem test_next_phase_reverse : traceAfter (step (at_ 20 0 1 false 0xEC)) = some [.write 0 0b0100] := by decide
/-- Z2. -/
theorem test_reset_in_a_step : blockAfter (step { at_ 1 0 2 true 1 with
    inputs := [{ Input.quiet with rst := true }] }) = some Block.reset := by decide

/-! ### The host side (vectors H) -/

/-- H1. -/
theorem test_connect : (handlerAfter (exec .connect State.reset)).map (fun h => (h.phase, h.tx)) =
    some (.connectedIdle, [0x41, 0x43, 0x4B, 0x41, 0x43, 0x4B, 0x41, 0x43, 0x4B]) := by decide
/-- H9. -/
theorem test_connect_again : (handlerAfter (exec .connect (connected []))).map (fun h => (h.tx, h.cmds)) =
    some ([], [0x1000]) := by decide
/-- H6: the command-id byte; the payload is still on the line. -/
theorem test_motor : (handlerAfter (step (connected [.byte 0xA8, .byte 1, .byte 0, .timeout]))).map
    (fun h => (h.phase, h.pending, h.cmds, h.rx)) =
      some (.awaitingPayload 0, some 0xA8, [], [.byte 1, .byte 0, .timeout]) := by decide
/-- H6: the first payload byte of 4.2, and its word. -/
theorem test_motor_payload_byte : (handlerAfter (step (awaiting 0 [.byte 1, .byte 0]))).map
    (fun h => (h.phase, h.cmds, h.rx)) = some (.awaitingPayload 1, [0x0801], [.byte 0]) := by decide
/-- H8: the timeout after the one byte that arrived. -/
theorem test_motor_partial : (handlerAfter (step (awaiting 1 [.timeout, .byte 0x55]))).map
    (fun h => (h.phase, h.cmds, h.rx)) = some (.connectedIdle, [0x1000], [.byte 0x55]) := by decide
/-- An error of the link ends a payload as a timeout does (log entry 29). -/
theorem test_motor_link_error : (handlerAfter (step (awaiting 1 [.error, .byte 0x55]))).map
    (fun h => (h.phase, h.cmds, h.rx)) = some (.connectedIdle, [0x1000], [.byte 0x55]) := by decide
/-- H6: after the seventh byte nothing more is received, and the iteration ends. -/
theorem test_motor_complete : (handlerAfter (step (awaiting 7 [.byte 0x55]))).map
    (fun h => (h.phase, h.cmds, h.rx)) = some (.connectedIdle, [0x1000], [.byte 0x55]) := by decide
/-- H2. -/
theorem test_motor_byte_before_handshake : next (exec (.otherWire 0xA8) State.reset) = some State.reset := by decide
/-- H4. -/
theorem test_other_byte : (handlerAfter (exec (.otherWire 0x55) (connected []))).map (·.cmds) = some [0x1000] := by
  decide
/-- H5. -/
theorem test_timeout_reruns : (handlerAfter (step (connected []))).map (·.cmds) = some [0x1000] := by decide
/-- H10. -/
theorem test_timeout_only_fresh :
    (handlerAfter (step { connected [] with handler.policy := .onlyFresh })).map (·.cmds) = some [] := by decide

/-! ### The end of a run (R213) -/

/-- Idle with no further command; not with one issued, not in a cycle. -/
theorem test_run_ended : State.reset.runEnded = true ∧ (issued [0x1000]).runEnded = false ∧
    (at_ 1 0 0 false 1).runEnded = false := by decide
/-- Program 5: halted, and the host stuck on a command or without one; a connected host under `ALWAYS` has no end. -/
theorem test_run_ended_halted : ({ State.reset with block.pos := .halted } : State).runEnded = true ∧
    ({ issued [0x0864] with block.pos := .halted } : State).runEnded = false ∧
    (connected []).runEnded = false ∧
    ({ connected [] with handler.policy := .onlyFresh } : State).runEnded = true := by decide

/-! ### Witnesses: a state and operands that meet the hypotheses of each obligation, clause by clause -/

/-- The clauses at the ends of their ranges: offsets 0, 6 and 7, and each operation. -/
theorem witness_CommandWordFieldsSelectTheCommand :
    ((0x07FF : CmdWord).toNat / 2048 = 0) ∧
    ((0x0800 : CmdWord).toNat / 2048 = 1 ∧ (0x0800 : CmdWord).toNat / 256 % 8 = (0 : Offset).val) ∧
    ((0x0EFF : CmdWord).toNat / 2048 = 1 ∧ (0x0EFF : CmdWord).toNat / 256 % 8 = (6 : Offset).val) ∧
    ((0x0F00 : CmdWord).toNat / 2048 = 1 ∧ (0x0F00 : CmdWord).toNat / 256 % 8 = 7) ∧
    ((0x17FF : CmdWord).toNat / 2048 = 2) ∧ ((0x1800 : CmdWord).toNat / 2048 = 3) := by decide
theorem witness_CommandWordReencodes :
    (0x0EFF : CmdWord).toNat / 2048 = 1 ∧ (0x17FF : CmdWord).toNat / 2048 ≠ 1 := by decide
theorem witness_DecodeOfEncodeIsTheOperation :
    (Instr.wrb 6 0xFF).wellFormed = true ∧ (Instr.wrb 6 0xFF).selectedIn ⟨0, 0, .disconnected⟩ = true ∧
    (Instr.stepf 5 0x14).wellFormed = true ∧ (Instr.stepf 5 0x14).selectedIn ⟨5, 20, .disconnected⟩ = true ∧
    (Instr.stepr 0 0xFF).wellFormed = true ∧ (Instr.stepr 0 0xFF).selectedIn ⟨0, 1, .disconnected⟩ = true ∧
    (Instr.hold 1 0x14).wellFormed = true ∧ (Instr.hold 1 0x14).selectedIn ⟨1, 19, .disconnected⟩ = true ∧
    (Instr.motor [1, 2]).wellFormed = true ∧ (Instr.motor [1, 2]).selectedIn ⟨0, 0, .connectedIdle⟩ = true ∧
    Instr.connect.selectedIn ⟨0, 0, .disconnected⟩ = true ∧
    (Instr.otherWire 0xB9).selectedIn ⟨0, 0, .connectedIdle⟩ = true := by decide
theorem witness_SelectionFollowsCadenceAndTick :
    ((0 : Byte).toInt = 0) ∧ (0 < (20 : Byte).toInt ∧ ((20 : Byte).toNat : Int) % (20 : Byte).toInt = 0) ∧
    ((0xFF : Byte).toInt < 0 ∧ ((7 : Byte).toNat : Int) % (-(0xFF : Byte).toInt) = 0) ∧
    ((0xEC : Byte).toInt ≠ 0 ∧ ((19 : Byte).toNat : Int) % ((0xEC : Byte).toInt.natAbs : Int) ≠ 0) := by decide
theorem witness_WireMessageIsTakenWhole :
    (Instr.motor [1, 2]).wellFormed = true ∧ (Instr.motor [1, 2]).selectedIn ⟨0, 0, .connectedIdle⟩ = true ∧
    encode (.motor [1, 2]) = .wire [.byte 0xA8, .byte 1, .byte 2] ∧ [1, 2].length < 7 := by decide
theorem witness_StepRunsDecodedOperation :
    (issued [0x1000]).input.rst = false ∧ (issued [0x1000]).input.restart = false ∧
    (issued [0x1000]).input.giveUp = false ∧
    (issued [0x1000]).takeInput.fetch (issued [0x1000]).input = some (.cmd 0x1000, State.reset) ∧
    decode State.reset.decodeCtx (.cmd 0x1000) = some .run := by decide
/-- A command that waits for the end of a cycle. -/
def commandInCycle : State := { at_ 1 0 0 false 1 with handler.cmds := [0x1000] }
/-- A command that is issued and not presented. -/
def notPresented : State := { issued [0x1000] with inputs := [⟨false, false, true, false, false⟩] }
theorem witness_CommandsAreAcceptedExactlyInIdle :
    ((issued [0x1000]).input.rst = false ∧ (issued [0x1000]).input.restart = false ∧
      (issued [0x1000]).input.giveUp = false ∧ (issued [0x1000]).input.cmdValid = true ∧
      (issued [0x1000]).block.pos.state = .idle ∧ (issued [0x1000]).handler.cmds = 0x1000 :: []) ∧
    (notPresented.input.rst = false ∧ notPresented.input.restart = false ∧ notPresented.input.giveUp = false ∧
      notPresented.input.cmdValid = false ∧ notPresented.block.pos.state = .idle ∧ notPresented.handler.cmds ≠ []) ∧
    (commandInCycle.input.restart = false ∧ commandInCycle.input.giveUp = false ∧
      commandInCycle.block.pos.state ≠ .idle ∧ commandInCycle.handler.cmds ≠ []) := by decide
theorem witness_EvaluationRunsTheSelectedOperation :
    (at_ 1 0 0 false 1).input.rst = false ∧ (at_ 1 0 0 false 1).input.restart = false ∧
    (at_ 1 0 0 false 1).input.giveUp = false ∧ (at_ 1 0 0 false 1).block.pos.state = .cycling ∧
    (at_ 1 0 0 false 1).block.pos.k = 0 ∧ (at_ 1 0 0 false 1).block.pos.w = false := by decide
theorem witness_StepContinuesWithTheNextPhase :
    (at_ 1 0 3 false 1).input.rst = false ∧ (at_ 1 0 3 false 1).input.restart = false ∧
    (at_ 1 0 3 false 1).input.giveUp = false ∧ (at_ 1 0 3 false 1).block.pos.state = .cycling ∧
    (at_ 1 0 3 false 1).block.pos.w = false ∧ 1 ≤ (at_ 1 0 3 false 1).block.pos.k.val ∧
    (at_ 1 0 3 false 1).block.pos.k.val ≤ 3 ∧
    (0 < (at_ 1 0 3 false 1).block.cad[(0 : Motor)].toInt ∧ (3 : Phase).val = (at_ 1 0 3 false 1).block.pos.k.val) ∧
    ((at_ 1 0 1 false 0xFF).block.cad[(0 : Motor)].toInt < 0 ∧
      (2 : Phase).val = 3 - (at_ 1 0 1 false 0xFF).block.pos.k.val) ∧
    ((at_ 1 0 1 false 0).block.cad[(0 : Motor)].toInt = 0 ∧
      (2 : Phase).val = 3 - (at_ 1 0 1 false 0).block.pos.k.val) := by decide
theorem witness_DelayCompletionEndsTheWait :
    (at_ 1 0 4 true 1).input.rst = false ∧ (at_ 1 0 4 true 1).input.restart = false ∧
    (at_ 1 0 4 true 1).input.giveUp = false ∧ (at_ 1 0 4 true 1).input.delayDone = true ∧
    (at_ 1 0 4 true 1).block.pos.state = .cycling ∧ (at_ 1 0 4 true 1).block.pos.w = true := by decide
/-- A delay in flight that the time base has not completed. -/
def waiting : State := { at_ 1 0 1 true 1 with inputs := [{ Input.quiet with delayDone := false }] }
theorem witness_NothingMovesWhileTheDelayLasts :
    waiting.input.rst = false ∧ waiting.input.restart = false ∧ waiting.input.giveUp = false ∧
    waiting.input.delayDone = false ∧ waiting.block.pos.state = .cycling ∧ waiting.block.pos.w = true := by decide
theorem witness_DelayDoneIsIgnoredWithoutARequest : (at_ 1 0 2 false 1).block.pos.w = false := by decide
theorem witness_ResetOverridesEverything :
    ({ at_ 1 0 2 true 1 with inputs := [⟨true, true, true, true, true⟩] } : State).input.rst = true := by decide
/-- The outside's three events, one at a time. -/
theorem witness_OutsideEventsActOnOneSideOnly :
    ({ State.reset with inputs := [⟨true, true, true, true, true⟩] } : State).input.rst = true ∧
    (({ State.reset with inputs := [⟨false, true, true, true, true⟩] } : State).input.rst = false ∧
      ({ State.reset with inputs := [⟨false, true, true, true, true⟩] } : State).input.restart = true) ∧
    (({ State.reset with inputs := [⟨false, true, true, true, false⟩] } : State).input.rst = false ∧
      ({ State.reset with inputs := [⟨false, true, true, true, false⟩] } : State).input.restart = false ∧
      ({ State.reset with inputs := [⟨false, true, true, true, false⟩] } : State).input.giveUp = true) := by decide
/-- The two clauses: an Idle block and one that is not. -/
theorem witness_WrbWritesOneFrameByte :
    State.reset.block.pos.state = .idle ∧ (at_ 1 0 0 false 1).block.pos.state ≠ .idle := by decide
theorem witness_WrbIsIdempotent :
    exec (.wrb 0 1) State.reset = .next { State.reset with block.speed := #v[1, 0, 0, 0, 0, 0] } := rfl
theorem witness_RunConvertsAndStartsTheCycle :
    State.reset.block.pos.state = .idle ∧ (at_ 1 0 0 false 1).block.pos.state ≠ .idle := by decide
theorem witness_LoadframeIsSevenWrbsInOrder :
    encode (.loadframe #v[1, 2, 3, 4, 5, 6] 7) = .cmds [0x0801, 0x0902, 0x0A03, 0x0B04, 0x0C05, 0x0D06, 0x0E07] ∧
    (issued [0x0801, 0x0902, 0x0A03, 0x0B04, 0x0C05, 0x0D06, 0x0E07]).block.pos.state = .idle ∧
    (issued [0x0801, 0x0902, 0x0A03, 0x0B04, 0x0C05, 0x0D06, 0x0E07]).inputs = [] ∧
    (issued [0x0801, 0x0902, 0x0A03, 0x0B04, 0x0C05, 0x0D06, 0x0E07]).handler.cmds =
      [0x0801, 0x0902, 0x0A03, 0x0B04, 0x0C05, 0x0D06, 0x0E07] ++ [] ∧
    (0 ≤ 7 ∧ 7 ≤ 7) ∧ (at_ 1 0 0 false 1).block.pos.state ≠ .idle := by decide
theorem witness_ConvertIsTheTwoLevelMap :
    (0x80 : Byte).toInt ≤ -100 ∧ (0x9C : Byte).toInt ≤ -100 ∧
    (-99 ≤ (0x9D : Byte).toInt ∧ (0xFF : Byte).toInt ≤ -1) ∧ (0 : Byte).toInt = 0 ∧
    (1 ≤ (1 : Byte).toInt ∧ (99 : Byte).toInt ≤ 99) ∧ 100 ≤ (100 : Byte).toInt ∧ 100 ≤ (0x7F : Byte).toInt := by decide
theorem witness_ConversionForEveryParameterValue :
    (65 : Int) ≤ 65 ∧ (127 : Int) ≤ 127 ∧ (-128 : Int) ≤ -128 ∧ (0 : Int) = 0 ∧
    ((64 : Int) ≠ 0 ∧ ((64 : Int).natAbs : Int) ≤ 65 - 1) ∧ (65 : Int) ≤ ((-65 : Int).natAbs : Int) := by decide
theorem witness_ConversionEndPointsAndSign :
    (0xFF : Byte).toInt.natAbs = 1 ∧ (0x9C : Byte).toInt.natAbs = Config.maxSpeed ∧ (0 : Byte).toInt = 0 ∧
    (0x80 : Byte).toInt ≠ 0 := by decide
theorem witness_AdvanceFollowsTheLoopOrder :
    (at_ 20 4 0 false 1).block.pos.state = .cycling ∧ (at_ 20 4 0 false 1).block.pos.m.val < 5 ∧
    ((at_ 19 5 0 false 1).block.pos.m = 5 ∧ (at_ 19 5 0 false 1).block.pos.t.toNat < 20) ∧
    ((at_ 20 5 0 false 1).block.pos.m = 5 ∧ 20 ≤ (at_ 20 5 0 false 1).block.pos.t.toNat) := by decide
/-- The evaluation of motor 5 on tick 20. -/
theorem witness_HoldOnlyAdvances :
    (at_ 20 5 0 false 20).block.pos.state = .cycling ∧ (at_ 20 5 0 false 20).block.pos.m = 5 ∧
    (at_ 20 5 0 false 20).block.pos.k = 0 ∧ (at_ 20 5 0 false 20).block.pos.w = false := by decide
theorem witness_StopDeenergizesTheMotor :
    (at_ 20 5 0 false 0).block.pos.state = .cycling ∧ (at_ 20 5 0 false 0).block.pos.m = 5 ∧
    (at_ 20 5 0 false 0).block.pos.k = 0 ∧ (at_ 20 5 0 false 0).block.pos.w = false := by decide
/-- The last phase write of a step. -/
theorem witness_PhaseEnergizesOnlyThatPhase :
    (at_ 1 0 3 false 1).block.pos.state = .cycling ∧ (at_ 1 0 3 false 1).block.pos.m = 0 ∧
    (at_ 1 0 3 false 1).block.pos.k.val < 4 ∧ (at_ 1 0 3 false 1).block.pos.w = false := by decide
/-- A position outside a cycle, and one with four writes made. -/
theorem witness_MicroOperationsHaveNoEffectElsewhere :
    (¬ (State.reset.block.pos.state = .cycling ∧ State.reset.block.pos.m = 0 ∧ State.reset.block.pos.k = 0 ∧
      State.reset.block.pos.w = false) ∧ Instr.stop 0 = .stop 0) ∧
    (¬ ((at_ 1 0 4 false 1).block.pos.state = .cycling ∧ (at_ 1 0 4 false 1).block.pos.m = 0 ∧
      (at_ 1 0 4 false 1).block.pos.k.val < 4 ∧ (at_ 1 0 4 false 1).block.pos.w = false) ∧
      Instr.phase 0 3 = .phase 0 3) := by decide
theorem witness_StepBeginsAtTheFirstPhaseOfItsDirection :
    ((Instr.stepf 1 1 = .stepf 1 1 ∧ (0b0001 : Pattern) = 0b0001) ∨
      (Instr.stepf 1 1 = .stepr 1 1 ∧ (0b0001 : Pattern) = 0b1000)) ∧
    ((Instr.stepr 1 0xFF = .stepf 1 0xFF ∧ (0b1000 : Pattern) = 0b0001) ∨
      (Instr.stepr 1 0xFF = .stepr 1 0xFF ∧ (0b1000 : Pattern) = 0b1000)) ∧
    ((at_ 1 1 0 false 1).block.pos.state = .cycling ∧ (at_ 1 1 0 false 1).block.pos.m = 1 ∧
      (at_ 1 1 0 false 1).block.pos.k = 0 ∧ (at_ 1 1 0 false 1).block.pos.w = false) := by decide
theorem witness_ForwardStepSweepsPhases0To3 :
    (at_ 20 0 0 false 20).inputs = [] ∧ (at_ 20 0 0 false 20).block.pos.state = .cycling ∧
    (at_ 20 0 0 false 20).block.pos.m = 0 ∧ (at_ 20 0 0 false 20).block.pos.k = 0 ∧
    (at_ 20 0 0 false 20).block.pos.w = false ∧ 0 < (at_ 20 0 0 false 20).block.cad[(0 : Motor)].toInt ∧
    ((at_ 20 0 0 false 20).block.pos.t.toNat : Int) % (at_ 20 0 0 false 20).block.cad[(0 : Motor)].toInt = 0 := by
  decide
theorem witness_ReverseStepSweepsPhases3To0 :
    (at_ 7 1 0 false 0xFF).inputs = [] ∧ (at_ 7 1 0 false 0xFF).block.pos.state = .cycling ∧
    (at_ 7 1 0 false 0xFF).block.pos.m = 1 ∧ (at_ 7 1 0 false 0xFF).block.pos.k = 0 ∧
    (at_ 7 1 0 false 0xFF).block.pos.w = false ∧ (at_ 7 1 0 false 0xFF).block.cad[(1 : Motor)].toInt < 0 ∧
    ((at_ 7 1 0 false 0xFF).block.pos.t.toNat : Int) % (-(at_ 7 1 0 false 0xFF).block.cad[(1 : Motor)].toInt) = 0 := by
  decide
theorem witness_CycleLeavesTheTraceOfTheNestedLoop :
    (at_ 1 0 0 false 1).inputs = [] ∧ (at_ 1 0 0 false 1).block.pos = ⟨.cycling, 1, 0, 0, false⟩ := by decide
theorem witness_CycleCountsStepsAndDelays :
    (at_ 1 0 0 false 0xEC).inputs = [] ∧ (at_ 1 0 0 false 0xEC).block.pos = ⟨.cycling, 1, 0, 0, false⟩ := by decide
/-- A cycle that meets the invariant: all speeds 100, motor 0 in its first step. -/
def inStep : State :=
  { State.reset with
    block := ⟨.replicate 6 100, 0, .replicate 6 1, #v[2, 0, 0, 0, 0, 0], ⟨.cycling, 1, 0, 2, true⟩⟩ }
theorem inStep_inv : inStep.Inv where
  block :=
    { coil := by decide, cad := by decide, pos := by decide, snapshot := fun _ => by decide
      step := fun _ _ => ⟨by decide, by decide, by decide⟩ }
  handler := by decide
theorem witness_EveryStepOfACycleGoesForward :
    inStep.Inv ∧ inStep.input.rst = false ∧ inStep.input.restart = false ∧ inStep.input.giveUp = false ∧
    inStep.block.pos.state = .cycling ∧ (inStep.block.pos.w = true ∧ inStep.input.delayDone = true) :=
  ⟨inStep_inv, by decide⟩
theorem witness_EveryCycleEnds : inStep.Inv ∧ inStep.inputs = [] ∧ inStep.block.pos.state = .cycling :=
  ⟨inStep_inv, by decide⟩
theorem witness_NoFrameOrCadenceChangeDuringACycle :
    inStep.input.rst = false ∧ inStep.block.pos.state = .cycling := by decide
/-- A halted block with commands presented. -/
def haltedBlock : State := { issued [0x1000] with block.pos := .halted }
theorem witness_FatalHaltsUntilReset :
    State.reset.block.pos.state = .idle ∧ (at_ 1 0 0 false 1).block.pos.state ≠ .idle ∧
    (haltedBlock.block.pos.state = .halted ∧ haltedBlock.input.rst = false) := by decide
theorem witness_IdleBlockChangesOnlyByACommand :
    State.reset.input.rst = false ∧ State.reset.block.pos.state = .idle ∧ State.reset.handler.cmds = [] ∧
    ({ issued [0x1000] with inputs := [⟨false, false, true, false, false⟩] } : State).input.cmdValid = false := by decide
theorem witness_CoilsKeepTheirLevel :
    (blockAfter (step (at_ 1 0 0 false 1))).map (fun b => b.coil[(0 : Motor)]) = some 0b0001 ∧
    (at_ 1 0 0 false 1).block.coil[(0 : Motor)] ≠ 0b0001 := by decide
/-- The last motor of the last tick, and a `RUN` in Idle. -/
theorem witness_OperatingStateHasOnlyTheListedTransitions :
    (blockAfter (step (at_ 20 5 0 false 0))).map (·.pos.state) = some .idle ∧
    (at_ 20 5 0 false 0).block.pos.state ≠ .idle ∧
    (blockAfter (step (issued [0x1000]))).map (·.pos.state) = some .cycling ∧
    (blockAfter (step (issued [0x1800]))).map (·.pos.state) = some .halted ∧
    (issued [0x1000]).block.pos.state = .idle := by decide
theorem witness_FrameAndCadencesHaveOneWriter :
    (issued [0x0EFF]).input.rst = false ∧
    (next (step (issued [0x0EFF]))).map (·.memRead 6) = some 0xFF ∧ (issued [0x0EFF]).memRead 6 ≠ 0xFF ∧
    (blockAfter (step { issued [0x1000] with block.speed := .replicate 6 100 })).map (·.cad) =
      some (.replicate 6 1) := by decide
theorem witness_FlagIsNeverRead :
    (∃ t, step (issued [0x1000]) = .next t) ∧ step (issued [0x0F00]) = .refused .reservedWrb7 := ⟨⟨_, rfl⟩, rfl⟩
theorem witness_EveryStepKeepsTheInvariant : inStep.Inv ∧ ∃ t, step inStep = .next t := ⟨inStep_inv, _, rfl⟩
/-- A free handler in the two states in which it reads. -/
theorem witness_ConnectByteShakesHandsOnce :
    (State.reset.handler.cmds = [] ∧ State.reset.block.pos.state = .idle ∧
      State.reset.handler.phase = .disconnected) ∧
    ((connected []).handler.cmds = [] ∧ (connected []).block.pos.state = .idle ∧
      (connected []).handler.phase = .connectedIdle) := by decide
theorem witness_OtherWireBytesAreIgnored :
    State.reset.handler.cmds = [] ∧ State.reset.block.pos.state = .idle ∧
    (State.reset.handler.phase = .disconnected ∧ (0xA8 : Byte) ≠ 0xB9) ∧
    ((connected []).handler.phase = .connectedIdle ∧ (0xB9 : Byte) ≠ 0xA8) := by decide
/-- The message, and the last payload byte of the frame of program 3. -/
theorem witness_MotorMessageIssuesItsWrites :
    ((connected []).handler.cmds = [] ∧ (connected []).block.pos.state = .idle ∧
      (connected []).handler.phase = .connectedIdle) ∧
    ((awaiting 6 [.byte 1]).handler.cmds = [] ∧ (awaiting 6 [.byte 1]).block.pos.state = .idle ∧
      (awaiting 6 [.byte 1]).input.rst = false ∧ (awaiting 6 [.byte 1]).input.restart = false ∧
      (awaiting 6 [.byte 1]).input.giveUp = false ∧
      (awaiting 6 [.byte 1]).handler.phase = .awaitingPayload (6 : Offset).val ∧
      (awaiting 6 [.byte 1]).handler.rx = .byte 1 :: [] ∧
      encode (.loadframe #v[50, 0x80, 127, 0, 0xFF, 100] 1) =
        .cmds [0x0832, 0x0980, 0x0A7F, 0x0B00, 0x0CFF, 0x0D64, 0x0E01] ∧
      ((#v[50, 0x80, 127, 0, 0xFF, 100] : Vector Byte 6).toList ++ [1])[(6 : Offset).val]? = some (1 : Byte)) := by
  decide
theorem witness_WireOperationsNeedAFreeHandler :
    (State.reset.handler.cmds = [] ∧ State.reset.block.pos.state = .idle ∧
      State.reset.handler.phase = .disconnected) ∧
    (issued [0x1000]).handler.cmds ≠ [] ∧ (at_ 1 0 0 false 1).block.pos.state ≠ .idle ∧
    ({ connected [] with handler.phase := .awaitingPayload 7 } : State).handler.phase = .awaitingPayload 7 := by decide
theorem witness_DeviceTransmitsOnlyTheHandshake :
    (handlerAfter (step { State.reset with handler.rx := [.byte 0xB9] })).map (·.tx.length) = some 9 := by decide
theorem witness_IterationEndsWithRunAsThePolicySays :
    (connected [.timeout]).input.rst = false ∧ (connected [.timeout]).input.restart = false ∧
    (connected [.timeout]).input.giveUp = false ∧ (connected [.timeout]).handler.cmds = [] ∧
    (connected [.timeout]).block.pos.state = .idle ∧
    (awaiting 7 []).handler.phase = .awaitingPayload 7 ∧
    (6 < 7 ∧ (awaiting 6 []).handler.phase = .awaitingPayload 6 ∧ (awaiting 6 []).handler.rx = []) ∧
    ((connected [.timeout]).handler.phase = .connectedIdle ∧ (connected [.timeout]).handler.rx = .timeout :: []) ∧
    (connected []).handler.rx = [] ∧ (connected [.error]).handler.rx = .error :: [] ∧
    (State.reset.handler.phase = .disconnected ∧ State.reset.handler.rx = []) := by decide
/-- A complete MOTOR message on the wire of a free, connected handler. -/
def motorOnWire : State :=
  connected [.byte 0xA8, .byte 100, .byte 0x9C, .byte 0, .byte 0, .byte 0, .byte 0, .byte 1, .byte 0x55]
theorem witness_CompleteMotorMessageStartsItsCycle :
    motorOnWire.inputs = [] ∧ motorOnWire.block.pos.state = .idle ∧ motorOnWire.handler.cmds = [] ∧
    motorOnWire.handler.phase = .connectedIdle ∧
    motorOnWire.handler.rx =
      [.byte 0xA8, .byte 100, .byte 0x9C, .byte 0, .byte 0, .byte 0, .byte 0, .byte 1] ++ [.byte 0x55] := by decide
/-- A MOTOR message cut short after six payload bytes. -/
def shortOnWire (ended : List WireEvent) : State :=
  connected (.byte 0xA8 :: ([0, 1, 2, 3, 4, 5] : List Byte).map .byte ++ ended)
theorem witness_PartialPayloadWritesOnlyWhatArrived :
    ([0, 1, 2, 3, 4, 5] : List Byte).length < 7 ∧ (shortOnWire [.timeout, .byte 0x55]).inputs = [] ∧
    (shortOnWire [.timeout, .byte 0x55]).block.pos.state = .idle ∧
    (shortOnWire [.timeout, .byte 0x55]).handler.cmds = [] ∧
    (shortOnWire [.timeout, .byte 0x55]).handler.phase = .connectedIdle ∧
    (shortOnWire [.timeout, .byte 0x55]).handler.rx =
      .byte 0xA8 :: ([0, 1, 2, 3, 4, 5] : List Byte).map .byte ++ .timeout :: [.byte 0x55] ∧
    (shortOnWire [.error]).handler.rx =
      .byte 0xA8 :: ([0, 1, 2, 3, 4, 5] : List Byte).map .byte ++ .error :: [] ∧
    (shortOnWire []).handler.rx = .byte 0xA8 :: ([0, 1, 2, 3, 4, 5] : List Byte).map .byte ++ [] := by decide
/-- The three clauses: a byte before the handshake, one after it, and a message that is complete or cut short. -/
theorem witness_WireMessageIsReadAndRun :
    (motorOnWire.input.rst = false ∧ motorOnWire.input.restart = false ∧ motorOnWire.input.giveUp = false ∧
      motorOnWire.block.pos.state = .idle ∧ motorOnWire.handler.cmds = [] ∧
      motorOnWire.handler.phase = .connectedIdle ∧
      motorOnWire.handler.rx =
        .byte 0xA8 :: ([100, 0x9C, 0, 0, 0, 0, 1] : List Byte).map .byte ++ [.byte 0x55] ∧
      ([100, 0x9C, 0, 0, 0, 0, 1] : List Byte).length ≤ 7) ∧
    ((shortOnWire []).handler.phase = .connectedIdle ∧
      (shortOnWire []).handler.rx = .byte 0xA8 :: ([0, 1, 2, 3, 4, 5] : List Byte).map .byte ++ []) ∧
    ((connected [.byte 0xB9]).handler.phase = .connectedIdle ∧ (0xB9 : Byte) ≠ 0xA8 ∧
      (connected [.byte 0xB9]).handler.rx = .byte 0xB9 :: []) ∧
    (State.reset.handler.phase = .disconnected ∧
      ({ State.reset with handler.rx := [.byte 0xB9] } : State).handler.rx = .byte 0xB9 :: []) := by decide

end Sys2Proof.Tests
end

section
/-! The scope statements (spec/00_scope.md R11): which agent makes a step. One equation per way a step is decided. -/

namespace Sys2Proof.Machine

/-! ### What the outside does, event by event (R205: reset first) -/

theorem State.outside_of_rst (s : State) {inp : Input} (hr : inp.rst = true) :
    s.outside inp = some s.resetBlock := by
  simp [State.outside, hr]

theorem State.outside_of_restart (s : State) {inp : Input} (hr : inp.rst = false) (hs : inp.restart = true) :
    s.outside inp = some s.restartHost := by
  simp [State.outside, hr, hs]

theorem State.outside_of_giveUp (s : State) {inp : Input} (hr : inp.rst = false) (hs : inp.restart = false)
    (hg : inp.giveUp = true) : s.outside inp = some s.giveUp := by
  simp [State.outside, hr, hs, hg]

/-! ### What decides the step -/

/-- An event of the outside is the whole step. -/
theorem step_of_outside {s t : State} (h : s.takeInput.outside s.input = some t) : step s = .next t := by
  simp only [step, h]

/-- Without an event of the outside, a fetched operation that decodes is the whole step. -/
theorem step_of_fetch {s u : State} {e : Encoded} {i : Instr} (ho : s.takeInput.outside s.input = none)
    (hf : s.takeInput.fetch s.input = some (e, u)) (hd : decode u.decodeCtx e = some i) :
    step s = exec i u := by
  simp only [step, ho, hf, hd]

/-! ### A step with an event of the outside -/

theorem step_of_rst {s : State} (hr : s.input.rst = true) : step s = .next s.takeInput.resetBlock :=
  step_of_outside (State.outside_of_rst _ hr)

theorem step_of_restart {s : State} (hr : s.input.rst = false) (hs : s.input.restart = true) :
    step s = .next s.takeInput.restartHost :=
  step_of_outside (State.outside_of_restart _ hr hs)

theorem step_of_giveUp {s : State} (hr : s.input.rst = false) (hs : s.input.restart = false)
    (hg : s.input.giveUp = true) : step s = .next s.takeInput.giveUp :=
  step_of_outside (State.outside_of_giveUp _ hr hs hg)

/-! ### The obligations -/

/-- Settles O7: with no event of the outside, the fetched operation decides the step. -/
theorem stepRunsDecodedOperation : Obligations.StepRunsDecodedOperation := by
  intro s u e i hr hs hg hf hd
  exact step_of_fetch (State.outside_eq_none _ hr hs hg) hf hd

/-- Settles O15: each event is the whole step, and its state operation writes one side only: `resetBlock` the block and
the trace, `restartHost` and `giveUp` the handler. -/
theorem outsideEventsActOnOneSideOnly : Obligations.OutsideEventsActOnOneSideOnly := by
  intro s
  refine ⟨fun hr => ⟨s.takeInput.resetBlock, step_of_rst hr, ?_, ?_, ?_⟩, step_of_restart, step_of_giveUp⟩
  · simp only [State.resetBlock_handler, State.takeInput_handler]
  · simp only [State.resetBlock_convOut, State.takeInput_convOut]
  · simp only [State.resetBlock_inputs, State.takeInput_inputs]

end Sys2Proof.Machine
end

section
/-! The state statements (spec/10_state.md): the outputs, the reset values, and what a step can make of each part of
the block. -/

namespace Sys2Proof.Machine

/-! ### Outputs, reset values, idle micro-operations -/

/-- Six patterns one above the other, the first lowest: bit `p` of pattern `m` stands at place `4*m + p`. -/
theorem getLsbD_append_patterns (coil : Vector Pattern 6) (m : Motor) (p : Phase) :
    (coil[5] ++ coil[4] ++ coil[3] ++ coil[2] ++ coil[1] ++ coil[0]).getLsbD (4 * m.val + p.val) =
      coil[m].getLsbD p.val := by
  simp only [BitVec.getLsbD_append]
  match m with
  | 0 => grind
  | 1 => grind
  | 2 => grind
  | 3 => grind
  | 4 => grind
  | 5 => grind

/-- Settles O51: the bus is the six patterns one above the other. -/
theorem coilBusIsTheCoilRegisters : Obligations.CoilBusIsTheCoilRegisters :=
  fun b m p => getLsbD_append_patterns b.coil m p

/-- Settles O50: each output compares `STATE`, or is `W`. -/
theorem statusOutputsShowStateAndWait : Obligations.StatusOutputsShowStateAndWait := by
  intro b
  refine ⟨?_, ?_, ?_, rfl⟩
  · simp only [Block.cmdReady, beq_iff_eq]
  · simp only [Block.busy, beq_iff_eq]
  · simp only [Block.halted, beq_iff_eq]

/-- Settles O16: the three register files are six zeros each. -/
theorem resetStateHasTheValuesOfTheTable : Obligations.ResetStateHasTheValuesOfTheTable := by
  refine ⟨fun m => ?_, rfl, rfl⟩
  simp [State.reset, Block.reset]

/-- The block after reset meets the invariant: no cycle runs, so the last two clauses ask nothing. -/
theorem Block.reset_inv : Block.reset.Inv where
  coil := by decide
  cad := by decide
  pos := by decide
  snapshot h := nomatch h
  step h := nomatch h

/-- Settles O49: the block and the handler both start legal. -/
theorem resetMeetsTheInvariant : Obligations.ResetMeetsTheInvariant where
  block := Block.reset_inv
  handler := rfl

theorem State.when_evaluating_elsewhere {s : State} {m : Motor} (effect : State → State)
    (h : ¬ (s.block.pos.state = .cycling ∧ s.block.pos.m = m ∧ s.block.pos.k = 0 ∧ s.block.pos.w = false)) :
    s.when (s.evaluating m) effect = s :=
  State.when_false effect (by rwa [← Bool.not_eq_true, State.evaluating_iff])

theorem State.when_mayWritePhase_elsewhere {s : State} {m : Motor} (effect : State → State)
    (h : ¬ (s.block.pos.state = .cycling ∧ s.block.pos.m = m ∧ s.block.pos.k.val < 4 ∧ s.block.pos.w = false)) :
    s.when (s.mayWritePhase m) effect = s :=
  State.when_false effect (by rwa [← Bool.not_eq_true, State.mayWritePhase_iff])

/-- Settles O34: each micro-operation is its effect behind the condition of its position. -/
theorem microOperationsHaveNoEffectElsewhere : Obligations.MicroOperationsHaveNoEffectElsewhere := by
  intro i m s
  constructor
  · rintro h (rfl | ⟨c, rfl | rfl | rfl⟩)
    · exact congrArg Host.Outcome.next (State.when_evaluating_elsewhere _ h)
    · exact congrArg Host.Outcome.next (State.when_evaluating_elsewhere _ h)
    · exact congrArg Host.Outcome.next (State.when_evaluating_elsewhere _ h)
    · exact congrArg Host.Outcome.next (State.when_evaluating_elsewhere _ h)
  · rintro h ⟨p, rfl⟩
    exact congrArg Host.Outcome.next (State.when_mayWritePhase_elsewhere _ h)

/-! ### What a step can make of the block -/

/-- The block accepts the command `i` in this step (R100): it is Idle, and `i` is the command presented. -/
def State.Accepts (s : State) (i : Instr) : Prop :=
  s.block.pos.state = .idle ∧ s.input.cmdValid = true ∧
    ∃ word rest, s.handler.cmds = word :: rest ∧ decodeCmd word = i

/-- What a step without an event of the outside can make of the block: the effect of an accepted command (R102 to
R104), of a micro-operation at its position (R145, R162 to R165), or of a delay completion (R161). -/
inductive State.BlockMove (s : State) : Block → Prop where
  | wrb (off : Offset) (val : Byte) (ha : s.Accepts (.wrb off val)) : s.BlockMove (s.memWrite off val).block
  | run (ha : s.Accepts .run) : s.BlockMove s.enterCycle.block
  | fatal (ha : s.Accepts .fatal) : s.BlockMove s.raiseHalt.block
  | stop (he : s.evaluating s.block.pos.m = true) (hc : s.cadenceOf s.block.pos.m = 0) :
    s.BlockMove (s.writeStop s.block.pos.m).block
  | hold (he : s.evaluating s.block.pos.m = true) (hc : s.cadenceOf s.block.pos.m ≠ 0)
    (hn : s.block.pos.t.toNat % period s.block.cad[s.block.pos.m] ≠ 0) : s.BlockMove s.advance.block
  | phase (hp : s.mayWritePhase s.block.pos.m = true)
    (hdue : s.block.pos.k = 0 → s.cadenceOf s.block.pos.m ≠ 0 ∧
      s.block.pos.t.toNat % period s.block.cad[s.block.pos.m] = 0) :
    s.BlockMove (s.writePhase s.block.pos.m s.nextPhase).block
  | delay (hs : s.block.pos.state = .cycling) (hw : s.block.pos.w = true) (hd : s.input.delayDone = true) :
    s.BlockMove s.completeDelay.block

/-- A delay completion writes the position only: inside the step, or to the advance after the fourth phase (R161). -/
theorem State.completeDelay_block (s : State) :
    s.completeDelay.block = { s.block with
      pos := if s.block.pos.k = 4 then s.block.pos.advance else { s.block.pos with w := false } } := by
  rw [State.completeDelay_spec]
  rfl

/-- The frame write touches the block only, and reads nothing else. -/
theorem State.memWrite_block_congr {s u : State} (h : u.block = s.block) (off : Offset) (val : Byte) :
    (u.memWrite off val).block = (s.memWrite off val).block := by
  unfold State.memWrite
  split <;> simp only [h]

/-- The four selections of R143, each with the condition that selects it. -/
theorem decodeCad_cases (m : Motor) (t c : Byte) :
    (sext8 c = 0 ∧ decodeCad m t c = .stop m) ∨
    (0 < sext8 c ∧ t.toNat % period c = 0 ∧ decodeCad m t c = .stepf m c) ∨
    (sext8 c < 0 ∧ t.toNat % period c = 0 ∧ decodeCad m t c = .stepr m c) ∨
    (sext8 c ≠ 0 ∧ t.toNat % period c ≠ 0 ∧ decodeCad m t c = .hold m c) := by
  unfold decodeCad
  split
  · exact .inl ⟨‹_›, rfl⟩
  · split
    · split
      · exact .inr (.inl ⟨‹_›, ‹_›, rfl⟩)
      · exact .inr (.inr (.inl ⟨by omega, ‹_›, rfl⟩))
    · exact .inr (.inr (.inr ⟨‹_›, ‹_›, rfl⟩))

/-- The first phase write of a step is that of the cadence's direction (R163, R164). -/
theorem State.nextPhase_at_evaluation {s : State} (hk : s.block.pos.k = 0) :
    s.nextPhase = stepPhase (decide (0 < s.cadenceOf s.block.pos.m)) 0 := by
  simp [State.nextPhase, hk]

theorem State.mayWritePhase_of_evaluating {s : State} {m : Motor} (h : s.evaluating m = true) :
    s.mayWritePhase m = true := by
  obtain ⟨hs, hm, hk, hw⟩ := (s.evaluating_iff m).mp h
  exact (s.mayWritePhase_iff m).mpr ⟨hs, hm, by simp [hk], hw⟩

/-- What the operation selected at an evaluation makes of the block (R143). -/
theorem State.blockMove_of_selection {s t : State} (he : s.evaluating s.block.pos.m = true)
    (h : exec (decodeCad s.block.pos.m s.block.pos.t s.block.cad[s.block.pos.m]) s.takeInput = .next t) :
    s.BlockMove t.block := by
  obtain ⟨-, -, hk, -⟩ := (s.evaluating_iff _).mp he
  have heu : s.takeInput.evaluating s.block.pos.m = true := he
  have hp := State.mayWritePhase_of_evaluating he
  rcases decodeCad_cases s.block.pos.m s.block.pos.t s.block.cad[s.block.pos.m] with
    ⟨hc, hd⟩ | ⟨hc, ht, hd⟩ | ⟨hc, ht, hd⟩ | ⟨hc, ht, hd⟩ <;> rw [hd] at h
  · simp only [exec, execStop, State.when_true _ heu] at h
    cases h
    exact .stop he hc
  · simp only [exec, execStepf, State.when_true _ heu] at h
    cases h
    have hmove := State.BlockMove.phase hp fun _ => ⟨hc.ne', ht⟩
    rwa [State.nextPhase_at_evaluation hk, show decide (0 < s.cadenceOf s.block.pos.m) = true from decide_eq_true hc]
      at hmove
  · simp only [exec, execStepr, State.when_true _ heu] at h
    cases h
    have hmove := State.BlockMove.phase hp fun _ => ⟨hc.ne, ht⟩
    rwa [State.nextPhase_at_evaluation hk,
      show decide (0 < s.cadenceOf s.block.pos.m) = false from decide_eq_false hc.not_gt] at hmove
  · simp only [exec, execHold, State.when_true _ heu] at h
    cases h
    exact .hold he hc ht

/-- The five commands a command word can select (R75, R106). -/
theorem decodeCmd_cases (w : CmdWord) :
    decodeCmd w = .nop ∨ (∃ off val, decodeCmd w = .wrb off val) ∨ (∃ val, decodeCmd w = .wrb7 val) ∨
      decodeCmd w = .run ∨ decodeCmd w = .fatal := by
  unfold decodeCmd
  split
  · exact .inl rfl
  · split
    · split
      · exact .inr (.inl ⟨_, _, rfl⟩)
      · exact .inr (.inr (.inl ⟨_, rfl⟩))
    · split
      · exact .inr (.inr (.inr (.inl rfl)))
      · exact .inr (.inr (.inr (.inr rfl)))

/-- What an accepted command makes of the block; `u` is the state with the word taken off the port. -/
theorem State.blockMove_of_command {s u t : State} {word : CmdWord} (ha : s.Accepts (decodeCmd word))
    (hb : u.block = s.block) (h : exec (decodeCmd word) u = .next t) :
    t.block = s.block ∨ s.BlockMove t.block := by
  have ⟨hs, _⟩ := ha
  have hi : u.block.pos.state = .idle := by rw [hb, hs]
  rcases decodeCmd_cases word with hd | ⟨off, val, hd⟩ | ⟨val, hd⟩ | hd | hd <;> rw [hd] at h ha
  · simp only [exec, execNop, State.accept_idle _ hi] at h
    cases h
    exact .inl hb
  · simp only [exec, execWrb, State.wrb, State.accept_idle _ hi] at h
    cases h
    rw [State.memWrite_block_congr hb]
    exact .inr (.wrb off val ha)
  · simp only [exec, execWrb7] at h
    cases h
  · simp only [exec, execRun, State.accept_idle _ hi] at h
    cases h
    have hrun : u.enterCycle.block = s.enterCycle.block := by
      simp only [State.enterCycle, State.setCad, State.setPos, hb]
    exact .inr (hrun ▸ .run ha)
  · simp only [exec, execFatal, State.accept_idle _ hi] at h
    cases h
    have hfatal : u.raiseHalt.block = s.raiseHalt.block := by simp only [State.raiseHalt, State.setPos, hb]
    exact .inr (hfatal ▸ .fatal ha)

/-- What the next phase write makes of the block (R163, R164). -/
theorem State.blockMove_of_phase {s t : State} (hp : s.mayWritePhase s.block.pos.m = true) (hk : s.block.pos.k ≠ 0)
    (h : exec (.phase s.block.pos.m s.nextPhase) s.takeInput = .next t) : s.BlockMove t.block := by
  have hpu : s.takeInput.mayWritePhase s.block.pos.m = true := hp
  simp only [exec, execPhase, State.when_true _ hpu] at h
  cases h
  exact .phase hp fun h0 => absurd h0 hk

/-- Everything a fetched operation can make of the block: the wire operations leave it alone. -/
theorem State.blockMove_of_fetch {s u t : State} {e : Encoded} {i : Instr}
    (hf : s.takeInput.fetch s.input = some (e, u)) (hd : decode u.decodeCtx e = some i) (hx : exec i u = .next t) :
    t.block = s.block ∨ s.BlockMove t.block := by
  rcases State.fetch_cases hf with ⟨hs, hw, hk, rfl, rfl⟩ | ⟨hs, hw, hk, hk4, rfl, rfl⟩ |
    ⟨word, rest, hs, hv, hc, rfl, rfl⟩ | ⟨events, rest, -, -, -, rfl, rfl⟩
  · cases hd
    exact .inr (State.blockMove_of_selection ((s.evaluating_iff _).mpr ⟨hs, rfl, hk, hw⟩) hx)
  · cases (decodeCoil_onehot _ _).symm.trans hd
    exact .inr (State.blockMove_of_phase ((s.mayWritePhase_iff _).mpr ⟨hs, rfl, hk4, hw⟩) hk hx)
  · cases hd
    refine State.blockMove_of_command (s := s) ⟨hs, hv, word, rest, hc, rfl⟩ ?_ hx
    rfl
  · exact .inl ((exec_wire_block (decodeWire_cases hd) hx).trans rfl)

/-- Everything a step can make of the block: a reset, nothing, or a move of its own. -/
theorem step_block {s t : State} (h : step s = .next t) :
    (s.input.rst = true ∧ t.block = .reset) ∨ t.block = s.block ∨
      (s.takeInput.outside s.input = none ∧ s.BlockMove t.block) := by
  rcases step_cases h with ho | ⟨ho, e, u, i, hf, hd, hx⟩ | ⟨ho, -, rfl⟩
  · rcases State.outside_cases ho with ⟨hr, rfl⟩ | ⟨-, -, rfl⟩ | ⟨-, -, -, rfl⟩
    · exact .inl ⟨hr, rfl⟩
    · exact .inr (.inl rfl)
    · exact .inr (.inl rfl)
  · exact .inr ((State.blockMove_of_fetch hf hd hx).imp_right fun hm => ⟨ho, hm⟩)
  · rcases s.takeInput.otherStep_cases s.input with ⟨hs, hw, hd, he⟩ | ⟨-, -, he⟩ | he <;> rw [he]
    · have hb : s.takeInput.completeDelay.block = s.completeDelay.block := by
        rw [State.completeDelay_block, State.completeDelay_block, State.takeInput_block]
      exact .inr (.inr ⟨ho, hb ▸ .delay hs hw hd⟩)
    · exact .inr (.inl rfl)
    · exact .inr (.inl rfl)

/-! ### STATE (R26) -/

/-- The advance leaves `STATE` as it is, but for the last motor of the last tick (R146). -/
theorem Position.advance_state (p : Position) :
    p.advance.state = p.state ∨ (p.m = 5 ∧ 20 ≤ p.t.toNat ∧ p.advance.state = .idle) := by
  by_cases hm : p.m.val < 5
  · exact .inl (by rw [Position.advance_motor p hm])
  have hm5 : p.m = 5 := Fin.ext (by omega)
  by_cases ht : p.t.toNat < Config.maxCycles
  · exact .inl (by rw [Position.advance_tick p hm5 ht])
  · have hend := Nat.not_lt.mp ht
    exact .inr ⟨hm5, hend, by rw [Position.advance_exit p hm5 hend]; rfl⟩

/-- What a move of the block does to `STATE`. -/
theorem State.BlockMove.state_cases {s : State} {b : Block} (h : s.BlockMove b) :
    b.pos.state = s.block.pos.state ∨ (b.pos.state = .cycling ∧ s.Accepts .run) ∨
      (b.pos.state = .halted ∧ s.Accepts .fatal) ∨
      (s.block.pos.state = .cycling ∧ s.block.pos.m = 5 ∧ 20 ≤ s.block.pos.t.toNat ∧ b.pos.state = .idle) := by
  cases h with
  | wrb off val ha => exact .inl (by rw [State.memWrite_block_pos])
  | run ha => exact .inr (.inl ⟨rfl, ha⟩)
  | fatal ha => exact .inr (.inr (.inl ⟨rfl, ha⟩))
  | stop he hc =>
    obtain ⟨hs, -⟩ := (s.evaluating_iff _).mp he
    exact s.block.pos.advance_state.imp_right fun hend => .inr (.inr ⟨hs, hend⟩)
  | hold he hc hn =>
    obtain ⟨hs, -⟩ := (s.evaluating_iff _).mp he
    exact s.block.pos.advance_state.imp_right fun hend => .inr (.inr ⟨hs, hend⟩)
  | phase hp hdue => exact .inl rfl
  | delay hs hw hd =>
    rw [State.completeDelay_block]
    dsimp only
    split
    · exact s.block.pos.advance_state.imp_right fun hend => .inr (.inr ⟨hs, hend⟩)
    · exact .inl rfl

/-- Settles O44: a step that changes `STATE` is a reset or a move of the block, and of the moves only an accepted `RUN`
or `FATAL` and the last advance of a cycle change it. -/
theorem operatingStateHasOnlyTheListedTransitions : Obligations.OperatingStateHasOnlyTheListedTransitions := by
  intro s t h hne
  rcases step_block h with ⟨hr, hb⟩ | hb | ⟨-, hm⟩
  · exact .inl ⟨hr, by rw [hb]; rfl⟩
  · exact absurd (by rw [hb]) hne
  · rcases hm.state_cases with he | ⟨ht, hi, -, hc⟩ | ⟨ht, hi, -, hc⟩ | hend
    · exact absurd he hne
    · exact .inr (.inl ⟨hi, ht, hc⟩)
    · exact .inr (.inr (.inr ⟨hi, ht, hc⟩))
    · exact .inr (.inr (.inl hend))

/-! ### The frame and the cadence table (R21, R24) -/

/-- The frame is a view of the block (R23). -/
theorem State.memRead_congr {s t : State} (hs : t.block.speed = s.block.speed) (hf : t.block.flag = s.block.flag)
    (off : Offset) : t.memRead off = s.memRead off := by
  simp only [State.memRead, hs, hf]

/-- What a move of the block does to the frame and the cadence table. -/
theorem State.BlockMove.frame_cases {s : State} {b : Block} (h : s.BlockMove b) :
    (∃ off val, s.Accepts (.wrb off val) ∧ b = (s.memWrite off val).block) ∨
    (b.speed = s.block.speed ∧ b.flag = s.block.flag ∧
      (b.cad = s.block.cad ∨ (s.Accepts .run ∧ b.cad = convertAll s.block.speed))) := by
  cases h with
  | wrb off val ha => exact .inl ⟨off, val, ha, rfl⟩
  | run ha => exact .inr ⟨rfl, rfl, .inr ⟨ha, rfl⟩⟩
  | fatal ha => exact .inr ⟨rfl, rfl, .inl rfl⟩
  | stop he hc => exact .inr ⟨rfl, rfl, .inl rfl⟩
  | hold he hc hn => exact .inr ⟨rfl, rfl, .inl rfl⟩
  | phase hp hdue => exact .inr ⟨rfl, rfl, .inl rfl⟩
  | delay hs hw hd =>
    rw [State.completeDelay_block]
    exact .inr ⟨rfl, rfl, .inl rfl⟩

/-- Settles O45: of the moves of the block only an accepted `WRB` changes the frame and only an accepted `RUN` the
cadence table, and the laws of the frame say which byte. -/
theorem frameAndCadencesHaveOneWriter : Obligations.FrameAndCadencesHaveOneWriter := by
  intro s t h hr
  have kept (hs : t.block.speed = s.block.speed) (hf : t.block.flag = s.block.flag) (off : Offset)
      (hne : t.memRead off ≠ s.memRead off) : False := hne (State.memRead_congr hs hf off)
  rcases step_block h with ⟨hr', -⟩ | hb | ⟨-, hm⟩
  · simp [hr] at hr'
  · exact ⟨fun off hne => (kept (by rw [hb]) (by rw [hb]) off hne).elim, fun hne => absurd (by rw [hb]) hne⟩
  rcases hm.frame_cases with ⟨off, val, ⟨hi, -, word, rest, hc, hd⟩, hb⟩ | ⟨hs, hf, hcad⟩
  · refine ⟨fun off' hne => ?_, fun hne => absurd (by rw [hb, State.memWrite_block_cad]) hne⟩
    have hread : t.memRead off' = (s.memWrite off val).memRead off' :=
      State.memRead_congr (by rw [hb]) (by rw [hb]) off'
    by_cases ho : off' = off
    · subst ho
      exact ⟨hi, word, rest, val, hc, hd, by rw [hread, State.memRead_memWrite_same]⟩
    · rw [hread, State.memRead_memWrite_other s val ho] at hne
      exact absurd rfl hne
  · refine ⟨fun off hne => (kept hs hf off hne).elim, fun hne => ?_⟩
    rcases hcad with hcad | ⟨⟨hi, -, hc⟩, hcad⟩
    · exact absurd hcad hne
    · exact ⟨hi, hc, fun m => by rw [hcad, convertAll_getElem]⟩

/-! ### FLAG is never read (R22) -/

/-- The state with its flag erased. -/
def State.noFlag (s : State) : State := { s with block.flag := 0 }

/-- The outcome with the flag of its state erased. -/
def noFlagOutcome : Host.Outcome State Fault Refusal → Host.Outcome State Fault Refusal
  | .next s => .next s.noFlag
  | .fault r => .fault r
  | .refused r => .refused r

/-- A state operation never reads the flag: up to the flag, it answers the same on the state with its flag erased. -/
def State.IgnoresFlag (f : State → State) : Prop := ∀ s : State, (f s).noFlag = (f s.noFlag).noFlag

theorem State.IgnoresFlag.comp {f g : State → State} (hg : State.IgnoresFlag g) (hf : State.IgnoresFlag f) :
    State.IgnoresFlag fun s => g (f s) := fun s => by
  calc (g (f s)).noFlag = (g (f s).noFlag).noFlag := hg _
    _ = (g (f s.noFlag).noFlag).noFlag := by rw [hf]
    _ = (g (f s.noFlag)).noFlag := (hg _).symm

/-- Acceptance asks for Idle only. -/
theorem State.IgnoresFlag.accept {effect : State → State} (h : State.IgnoresFlag effect) :
    State.IgnoresFlag fun s => s.accept effect := fun s => by
  by_cases hi : s.block.pos.state = .idle
  · have hi' : s.noFlag.block.pos.state = .idle := hi
    simpa only [State.accept_idle _ hi, State.accept_idle _ hi'] using h s
  · have hi' : s.noFlag.block.pos.state ≠ .idle := hi
    simp only [State.accept_not_idle _ hi, State.accept_not_idle _ hi']
    rfl

/-- The enabling condition `enabled` of a micro-operation or a wire operation does not read the flag either. -/
theorem State.IgnoresFlag.when {effect : State → State} (h : State.IgnoresFlag effect) {enabled : State → Bool}
    (he : ∀ s : State, enabled s.noFlag = enabled s) : State.IgnoresFlag fun s => s.when (enabled s) effect :=
  fun s => by
  simp only [he]
  cases enabled s with
  | true => exact h s
  | false => rfl

theorem State.ignoresFlag_memWrite (off : Offset) (val : Byte) : State.IgnoresFlag (·.memWrite off val) := fun s => by
  simp only [State.memWrite]
  split
  · rfl
  · rfl

theorem State.ignoresFlag_wrb (off : Offset) (val : Byte) : State.IgnoresFlag (·.wrb off val) :=
  (State.ignoresFlag_memWrite off val).accept

theorem State.IgnoresFlag.next {f : State → State} (h : State.IgnoresFlag f) (s : State) :
    noFlagOutcome (.next (f s)) = noFlagOutcome (.next (f s.noFlag)) := congrArg Host.Outcome.next (h s)

theorem State.ignoresFlag_writePhase (m : Motor) (p : Phase) : State.IgnoresFlag (·.writePhase m p) := fun _ => rfl

theorem State.ignoresFlag_writeStop (m : Motor) : State.IgnoresFlag (·.writeStop m) := fun _ => rfl

theorem State.ignoresFlag_advance : State.IgnoresFlag State.advance := fun _ => rfl

theorem State.ignoresFlag_enterCycle : State.IgnoresFlag State.enterCycle := fun _ => rfl

theorem State.ignoresFlag_raiseHalt : State.IgnoresFlag State.raiseHalt := fun _ => rfl

/-- A step of the handler reads the handler only. -/
theorem State.ignoresFlag_setHandler (h : Handler → Handler) :
    State.IgnoresFlag fun s => s.setHandler (h s.handler) := fun _ => rfl

/-- An operation at the evaluation of its motor. -/
theorem State.IgnoresFlag.whenEvaluating {effect : State → State} (h : State.IgnoresFlag effect) (m : Motor) :
    State.IgnoresFlag fun s => s.when (s.evaluating m) effect := h.when fun _ => rfl

/-- An operation of the wire. -/
theorem State.ignoresFlag_receive (h : Handler → Handler) :
    State.IgnoresFlag fun s => s.when s.receiving fun s => s.setHandler (h s.handler) :=
  (State.ignoresFlag_setHandler h).when fun _ => rfl

/-- No operation reads the flag: the outcome is the same up to the flag, a refusal too. -/
theorem exec_ignores_flag (i : Instr) (s : State) :
    noFlagOutcome (exec i s) = noFlagOutcome (exec i s.noFlag) := by
  cases i with
  | nop => exact (State.IgnoresFlag.accept (effect := id) fun _ => rfl).next s
  | wrb off val => exact (State.ignoresFlag_wrb off val).next s
  | wrb7 val => rfl
  | run => exact State.ignoresFlag_enterCycle.accept.next s
  | fatal => exact State.ignoresFlag_raiseHalt.accept.next s
  | loadframe v f =>
    have wrb := State.ignoresFlag_wrb
    exact ((wrb 6 f).comp <| (wrb 5 v[5]).comp <| (wrb 4 v[4]).comp <| (wrb 3 v[3]).comp <|
      (wrb 2 v[2]).comp <| (wrb 1 v[1]).comp (wrb 0 v[0])).next s
  | conv v => rfl
  | stop m => exact ((State.ignoresFlag_writeStop m).whenEvaluating m).next s
  | stepf m c => exact ((State.ignoresFlag_writePhase m _).whenEvaluating m).next s
  | stepr m c => exact ((State.ignoresFlag_writePhase m _).whenEvaluating m).next s
  | hold m c => exact (State.ignoresFlag_advance.whenEvaluating m).next s
  | phase m p =>
    have h := (State.ignoresFlag_writePhase m p).when (enabled := (·.mayWritePhase m)) fun _ => rfl
    exact h.next s
  | connect => exact (State.ignoresFlag_receive (·.receiveByte connectByte)).next s
  | motor payload => exact (State.ignoresFlag_receive (·.receiveMotor payload)).next s
  | otherWire b => exact (State.ignoresFlag_receive (·.receiveByte b)).next s

/-- What the outside does never reads the flag. -/
theorem State.outside_ignores_flag (s : State) (inp : Input) :
    (s.outside inp).map State.noFlag = (s.noFlag.outside inp).map State.noFlag := by
  unfold State.outside
  split
  · rfl
  · split
    · rfl
    · split
      · rfl
      · rfl

/-- The flag does not enter what is fetched. -/
theorem State.fetch_noFlag (s : State) (inp : Input) :
    s.noFlag.fetch inp = (s.fetch inp).map fun p => (p.1, p.2.noFlag) := by
  have hstate : s.noFlag.block.pos.state = s.block.pos.state := rfl
  have hhandler : s.noFlag.handler = s.handler := rfl
  unfold State.fetch
  rw [hstate, hhandler]
  split
  · simp only [apply_ite (Option.map _)]
    rfl
  · rw [apply_ite (Option.map _)]
    rfl
  · rfl
  · split
    · rfl
    · rfl

theorem State.ignoresFlag_completeDelay : State.IgnoresFlag State.completeDelay := fun s => by
  rw [State.completeDelay_spec, State.completeDelay_spec]
  rfl

theorem State.ignoresFlag_otherStep (inp : Input) : State.IgnoresFlag (State.otherStep inp) := fun s => by
  have hpos : s.noFlag.block.pos = s.block.pos := rfl
  have delay := State.ignoresFlag_completeDelay.when (enabled := fun s => s.block.pos.w && inp.delayDone)
    (fun _ => rfl) s
  have loop := (State.ignoresFlag_setHandler Handler.loopStep).when (enabled := fun s => s.handler.cmds.isEmpty)
    (fun _ => rfl) s
  unfold State.otherStep
  rw [hpos]
  split
  · exact delay
  · exact loop
  · rfl

/-- Without an event of the outside and with nothing fetched, the step is no operation of the table. -/
theorem step_of_nothing_fetched {s : State} (ho : s.takeInput.outside s.input = none)
    (hf : s.takeInput.fetch s.input = none) : step s = .next (s.takeInput.otherStep s.input) := by
  simp only [step, ho, hf]

/-- No step reads the flag: each of the three ways a step is decided is the same without it. -/
theorem step_ignores_flag (s : State) : noFlagOutcome (step s) = noFlagOutcome (step s.noFlag) := by
  have ho := s.takeInput.outside_ignores_flag s.input
  have hf := s.takeInput.fetch_noFlag s.input
  change _ = (s.noFlag.takeInput.outside s.noFlag.input).map State.noFlag at ho
  change s.noFlag.takeInput.fetch s.noFlag.input = _ at hf
  cases hs : s.takeInput.outside s.input with
  | some t =>
    rw [hs, eq_comm, Option.map_some, Option.map_eq_some_iff] at ho
    obtain ⟨u, hu, heq⟩ := ho
    rw [step_of_outside hs, step_of_outside hu]
    exact congrArg Host.Outcome.next heq.symm
  | none =>
    rw [hs, eq_comm, Option.map_none, Option.map_eq_none_iff] at ho
    cases hfs : s.takeInput.fetch s.input with
    | some p =>
      obtain ⟨e, t⟩ := p
      obtain ⟨i, hi⟩ := State.fetch_decodes hfs
      rw [hfs, Option.map_some] at hf
      have hi' : decode t.noFlag.decodeCtx e = some i := hi
      rw [step_of_fetch hs hfs hi, step_of_fetch ho hf hi']
      exact exec_ignores_flag i t
    | none =>
      rw [hfs, Option.map_none] at hf
      rw [step_of_nothing_fetched hs hfs, step_of_nothing_fetched ho hf]
      exact (State.ignoresFlag_otherStep s.input).next s.takeInput

/-- Settles O46: both steps are, up to the flag, the step from the state with its flag erased. -/
theorem flagIsNeverRead : Obligations.FlagIsNeverRead := by
  intro s v
  have hsame : noFlagOutcome (step { s with block.flag := v }) = noFlagOutcome (step s) :=
    (step_ignores_flag { s with block.flag := v }).trans (step_ignores_flag s).symm
  constructor
  · intro t ht
    rw [ht] at hsame
    cases hv : step { s with block.flag := v } with
    | next u =>
      rw [hv] at hsame
      exact ⟨u, rfl, Host.Outcome.next.inj hsame⟩
    | fault r => exact nomatch r
    | refused r =>
      rw [hv] at hsame
      exact nomatch hsame
  · intro r hr
    rw [hr] at hsame
    cases hv : step { s with block.flag := v } with
    | next u =>
      rw [hv] at hsame
      exact nomatch hsame
    | fault r => exact nomatch r
    | refused r' => rwa [hv] at hsame

end Sys2Proof.Machine
end

section
/-! The memory statements (spec/20_memory.md): what a second write of the same frame byte does. -/

namespace Sys2Proof.Machine

/-- Of two writes to one frame byte the second stays: `SPEED[off]` below 6, `FLAG` at 6. -/
theorem State.memWrite_memWrite_same (s : State) (off : Offset) (v v' : Byte) :
    (s.memWrite off v).memWrite off v' = s.memWrite off v' := by
  unfold State.memWrite
  by_cases h : off.val < 6
  · simp only [dif_pos h, Vector.set_set]
  · simp only [dif_neg h]

/-- Idle or not, a `WRB` leaves the state of the cycle as it was, so the second is accepted just when the first was. -/
theorem State.wrb_wrb_same (s : State) (off : Offset) (val : Byte) : (s.wrb off val).wrb off val = s.wrb off val := by
  by_cases h : s.block.pos.state = .idle
  · have first : s.wrb off val = s.memWrite off val := State.accept_idle _ h
    have second : (s.wrb off val).wrb off val = (s.wrb off val).memWrite off val :=
      State.accept_idle _ (by rwa [State.wrb_pos])
    rw [second, first, State.memWrite_memWrite_same]
  · have hs : s.wrb off val = s := State.accept_not_idle _ h
    rw [hs, hs]

/-- Settles O19: the one answer of the first `WRB` is the state it wrote, where the second writes the same again. -/
theorem wrbIsIdempotent : Obligations.WrbIsIdempotent := by
  intro off val s t h
  obtain rfl : s.wrb off val = t := Host.Outcome.next.inj h
  exact congrArg Host.Outcome.next (s.wrb_wrb_same off val)

end Sys2Proof.Machine
end

section
/-! The encoding statements (spec/30_encoding.md): the fields of a command word, what each format's decoder makes of
the encoder's value, and where a wire message ends. -/

namespace Sys2Proof.Machine

/-! ### The fields of a command word (R75) -/

theorem cmdOp_toNat (w : CmdWord) : (cmdOp w).toNat = w.toNat / 2048 := by
  have := w.isLt
  simp only [cmdOp, BitVec.extractLsb'_toNat, Nat.shiftRight_eq_div_pow]
  omega

theorem cmdOff_toNat (w : CmdWord) : (cmdOff w).toNat = w.toNat / 256 % 8 := by
  simp only [cmdOff, BitVec.extractLsb'_toNat, Nat.shiftRight_eq_div_pow, Nat.reducePow]

theorem cmdVal_toNat (w : CmdWord) : (cmdVal w).toNat = w.toNat % 256 := by
  simp only [cmdVal, BitVec.extractLsb'_toNat, Nat.shiftRight_zero, Nat.reducePow]

theorem cmdVal_eq_ofNat (w : CmdWord) : cmdVal w = BitVec.ofNat 8 (w.toNat % 256) := by
  rw [← cmdVal_toNat, BitVec.ofNat_toNat, BitVec.setWidth_eq]

/-- A command word is the sum of its fields at their places, as R81 writes one. -/
theorem cmdWord_toNat (op : BitVec 2) (off : BitVec 3) (val : Byte) :
    (cmdWord op off val).toNat = 2048 * op.toNat + 256 * off.toNat + val.toNat := by
  have := off.isLt
  have := val.isLt
  simp only [cmdWord, BitVec.toNat_append]
  rw [← Nat.shiftLeft_add_eq_or_of_lt off.isLt, ← Nat.shiftLeft_add_eq_or_of_lt val.isLt]
  simp only [Nat.shiftLeft_eq]
  omega

@[simp] theorem cmdOp_cmdWord (op : BitVec 2) (off : BitVec 3) (val : Byte) : cmdOp (cmdWord op off val) = op := by
  have := off.isLt
  have := val.isLt
  apply BitVec.eq_of_toNat_eq
  rw [cmdOp_toNat, cmdWord_toNat]
  omega

@[simp] theorem cmdOff_cmdWord (op : BitVec 2) (off : BitVec 3) (val : Byte) : cmdOff (cmdWord op off val) = off := by
  have := off.isLt
  have := val.isLt
  apply BitVec.eq_of_toNat_eq
  rw [cmdOff_toNat, cmdWord_toNat]
  omega

@[simp] theorem cmdVal_cmdWord (op : BitVec 2) (off : BitVec 3) (val : Byte) : cmdVal (cmdWord op off val) = val := by
  have := val.isLt
  apply BitVec.eq_of_toNat_eq
  rw [cmdVal_toNat, cmdWord_toNat]
  omega

/-- The three fields are the whole word. -/
theorem cmdWord_fields (w : CmdWord) : cmdWord (cmdOp w) (cmdOff w) (cmdVal w) = w := by
  apply BitVec.eq_of_toNat_eq
  rw [cmdWord_toNat, cmdOp_toNat, cmdOff_toNat, cmdVal_toNat]
  omega

theorem cmdOp_eq_iff (w : CmdWord) (op : BitVec 2) : cmdOp w = op ↔ w.toNat / 2048 = op.toNat := by
  rw [← cmdOp_toNat, BitVec.toNat_inj]

/-! ### The command a word selects (R75, R106) -/

theorem decodeCmd_nop {w : CmdWord} (h : cmdOp w = 0) : decodeCmd w = .nop := by
  simp [decodeCmd, h]

theorem decodeCmd_wrb {w : CmdWord} (h : cmdOp w = 1) (off : Offset) (ho : (cmdOff w).toNat = off.val) :
    decodeCmd w = .wrb off (cmdVal w) := by
  simp [decodeCmd, h, ho]

theorem decodeCmd_wrb7 {w : CmdWord} (h : cmdOp w = 1) (ho : (cmdOff w).toNat = 7) :
    decodeCmd w = .wrb7 (cmdVal w) := by
  simp [decodeCmd, h, ho]

theorem decodeCmd_run {w : CmdWord} (h : cmdOp w = 2) : decodeCmd w = .run := by
  simp [decodeCmd, h]

theorem decodeCmd_fatal {w : CmdWord} (h : cmdOp w = 3) : decodeCmd w = .fatal := by
  simp [decodeCmd, h]

@[simp] theorem decodeCmd_wrbWord (off : Offset) (val : Byte) : decodeCmd (wrbWord off val) = .wrb off val := by
  have hoff : (cmdOff (wrbWord off val)).toNat = off.val := by
    rw [wrbWord, cmdOff_cmdWord, BitVec.toNat_ofNat]
    omega
  rw [decodeCmd_wrb (w := wrbWord off val) (cmdOp_cmdWord ..) off hoff, wrbWord, cmdVal_cmdWord]

/-! ### Encoding what a word decodes to (R81) -/

/-- A `WRB` uses all three fields, so nothing of its word is lost; offset 7 keeps its own encoding. -/
theorem encode_decodeCmd_of_wrb {w : CmdWord} (h : cmdOp w = 1) : encode (decodeCmd w) = .cmd w := by
  by_cases ho : (cmdOff w).toNat < 7
  · rw [decodeCmd_wrb h ⟨_, ho⟩ rfl, encode, wrbWord, BitVec.ofNat_toNat, BitVec.setWidth_eq, ← h, cmdWord_fields]
  · have h7 : cmdOff w = 7 := by bv_omega
    rw [decodeCmd_wrb7 h (congrArg BitVec.toNat h7), encode, ← h7, ← h, cmdWord_fields]

/-- The operation code of a command that ignores the other two fields. -/
theorem cmdOp_cases_of_ne_wrb {w : CmdWord} (h : cmdOp w ≠ 1) : cmdOp w = 0 ∨ cmdOp w = 2 ∨ cmdOp w = 3 := by
  bv_omega

/-- The other commands use the operation code only, so the word that is written back has only that. -/
theorem encode_decodeCmd_of_ne_wrb {w : CmdWord} (h : cmdOp w ≠ 1) :
    encode (decodeCmd w) = .cmd (cmdWord (cmdOp w) 0 0) := by
  obtain h0 | h2 | h3 := cmdOp_cases_of_ne_wrb h
  · rw [decodeCmd_nop h0, h0, encode]
  · rw [decodeCmd_run h2, h2, encode, runWord]
  · rw [decodeCmd_fatal h3, h3, encode]

/-- Words with the same operation code, none of them a `WRB`, select the same command. -/
theorem decodeCmd_congr_of_ne_wrb {w w' : CmdWord} (h : cmdOp w ≠ 1) (hop : cmdOp w' = cmdOp w) :
    decodeCmd w' = decodeCmd w := by
  obtain h0 | h2 | h3 := cmdOp_cases_of_ne_wrb h
  · rw [decodeCmd_nop h0, decodeCmd_nop (hop.trans h0)]
  · rw [decodeCmd_run h2, decodeCmd_run (hop.trans h2)]
  · rw [decodeCmd_fatal h3, decodeCmd_fatal (hop.trans h3)]

/-! ### The encoder's values in the other formats -/

/-- The seven words of a `LOADFRAME` read back as the frame (R105). -/
theorem decodeFrame_frameWords (v : Vector Byte 6) (f : Byte) :
    decodeFrame (frameWords v f) = some (.loadframe v f) := by
  have hv : #v[v[0], v[1], v[2], v[3], v[4], v[5]] = v := by
    ext i hi
    interval_cases i <;> rfl
  simp only [frameWords, decodeFrame, decodeCmd_wrbWord, hv]

theorem decodeCad_zero (m : Motor) (t : Byte) : decodeCad m t 0 = .stop m :=
  if_pos ((sext8_eq_zero_iff 0).mpr rfl)

theorem sext8_pos_iff (c : Byte) : 0 < sext8 c ↔ c.msb = false ∧ c ≠ 0 := by
  have hneg := sext8_neg_iff c
  have hzero := sext8_eq_zero_iff c
  rw [← Bool.not_eq_true, ← hneg, Ne, ← hzero]
  omega

theorem decodeCad_stepf {m : Motor} {t c : Byte} (hc : 0 < sext8 c) (ht : t.toNat % period c = 0) :
    decodeCad m t c = .stepf m c := by
  rw [decodeCad, if_neg hc.ne', if_pos ht, if_pos hc]

theorem decodeCad_stepr {m : Motor} {t c : Byte} (hc : sext8 c < 0) (ht : t.toNat % period c = 0) :
    decodeCad m t c = .stepr m c := by
  rw [decodeCad, if_neg hc.ne, if_pos ht, if_neg hc.not_gt]

theorem decodeCad_hold {m : Motor} {t c : Byte} (hc : sext8 c ≠ 0) (ht : t.toNat % period c ≠ 0) :
    decodeCad m t c = .hold m c := by
  rw [decodeCad, if_neg hc, if_neg ht]

/-- A `MOTOR` message of a connected handler reads back as its payload (R76, R183). -/
theorem decodeWire_motor {payload : List Byte} (h : payload.length ≤ payloadLength) :
    decodeWire .connectedIdle (.byte motorByte :: payloadEvents payload) = some (.motor payload) := by
  simp [decodeWire, decodePayload_payloadEvents h]

/-- When a one-byte message is neither `CONNECT` nor `MOTOR`: the first matters before the handshake only, the second
after it only (R79e). -/
theorem otherWire_selectedIn_iff (b : Byte) (ctx : DecodeCtx) :
    (Instr.otherWire b).selectedIn ctx = true ↔
      (ctx.handler = .disconnected ∧ b ≠ connectByte) ∨ (ctx.handler = .connectedIdle ∧ b ≠ motorByte) := by
  simp [Instr.selectedIn]

/-- A `MOTOR` message is taken off the line with its whole payload, if the payload is full or no byte follows (R184). -/
theorem wireMessage_motor {payload : List Byte} {rest : List WireEvent} (h : payload.length ≤ payloadLength)
    (hr : payload.length < payloadLength → ∀ b r, rest ≠ .byte b :: r) :
    wireMessage .connectedIdle (.byte motorByte :: payloadEvents payload ++ rest) =
      some (.byte motorByte :: payloadEvents payload, rest) := by
  have htake : takePayload payloadLength (payloadEvents payload ++ rest) = (payload, rest) := takePayload_eq h hr
  simp [wireMessage, htake]

/-! ### The obligations -/

/-- Settles O4, one format at a time: what the operation's selection says of the context is what the decoder tests. -/
theorem decodeOfEncodeIsTheOperation : Obligations.DecodeOfEncodeIsTheOperation := by
  rintro i ⟨motor, tick, handler⟩ hwf hsel
  cases i with
  | nop => exact congrArg some (decodeCmd_nop (cmdOp_cmdWord ..))
  | wrb off val => exact congrArg some (decodeCmd_wrbWord off val)
  | wrb7 val => simp [encode, decode, decodeCmd_wrb7]
  | run => exact congrArg some (decodeCmd_run (cmdOp_cmdWord ..))
  | fatal => exact congrArg some (decodeCmd_fatal (cmdOp_cmdWord ..))
  | loadframe v f => exact decodeFrame_frameWords v f
  | conv v => rfl
  | stop m =>
    obtain rfl : m = motor := by simpa [Instr.selectedIn] using hsel
    exact congrArg some (decodeCad_zero m tick)
  | stepf m c =>
    obtain ⟨rfl, ht⟩ : m = motor ∧ tick.toNat % period c = 0 := by simpa [Instr.selectedIn] using hsel
    have hc : c.msb = false ∧ c ≠ 0 := by simpa [Instr.wellFormed] using hwf
    exact congrArg some (decodeCad_stepf ((sext8_pos_iff c).mpr hc) ht)
  | stepr m c =>
    obtain ⟨rfl, ht⟩ : m = motor ∧ tick.toNat % period c = 0 := by simpa [Instr.selectedIn] using hsel
    exact congrArg some (decodeCad_stepr ((sext8_neg_iff c).mpr hwf) ht)
  | hold m c =>
    obtain ⟨rfl, ht⟩ : m = motor ∧ tick.toNat % period c ≠ 0 := by simpa [Instr.selectedIn] using hsel
    have hc : c ≠ 0 := by simpa [Instr.wellFormed] using hwf
    exact congrArg some (decodeCad_hold (mt (sext8_eq_zero_iff c).mp hc) ht)
  | phase m p =>
    obtain rfl : m = motor := by simpa [Instr.selectedIn] using hsel
    exact decodeCoil_onehot m p
  | connect =>
    obtain rfl : handler = .disconnected := by simpa [Instr.selectedIn] using hsel
    rfl
  | motor payload =>
    obtain rfl : handler = .connectedIdle := by simpa [Instr.selectedIn] using hsel
    exact decodeWire_motor (of_decide_eq_true hwf)
  | otherWire b =>
    obtain ⟨rfl, hb⟩ | ⟨rfl, hb⟩ := (otherWire_selectedIn_iff b _).mp hsel
    · simp [encode, decode, decodeWire, hb]
    · simp [encode, decode, decodeWire, hb]

/-- Settles O2: the clauses are `decodeCmd`'s cases, with each field as the quotient or remainder that holds it. -/
theorem commandWordFieldsSelectTheCommand : Obligations.CommandWordFieldsSelectTheCommand := by
  intro w
  simp only [← cmdVal_eq_ofNat, ← cmdOff_toNat]
  refine ⟨fun h => ?nop, fun h off ho => ?wrb, fun h ho => ?wrb7, fun h => ?run, fun h => ?fatal⟩
  case nop => exact decodeCmd_nop ((cmdOp_eq_iff w 0).mpr h)
  case wrb => exact decodeCmd_wrb ((cmdOp_eq_iff w 1).mpr h) off ho
  case wrb7 => exact decodeCmd_wrb7 ((cmdOp_eq_iff w 1).mpr h) ho
  case run => exact decodeCmd_run ((cmdOp_eq_iff w 2).mpr h)
  case fatal => exact decodeCmd_fatal ((cmdOp_eq_iff w 3).mpr h)

/-- Settles O3: a `WRB` comes back as it was, any other word with its operation code alone. -/
theorem commandWordReencodes : Obligations.CommandWordReencodes := by
  intro w
  by_cases h : cmdOp w = 1
  · have hop : w.toNat / 2048 = 1 := (cmdOp_eq_iff w 1).mp h
    exact ⟨w, encode_decodeCmd_of_wrb h, rfl, rfl, fun _ => rfl, fun hne => absurd hop hne⟩
  · have hop : w.toNat / 2048 ≠ 1 := mt (cmdOp_eq_iff w 1).mpr h
    have hw' : (cmdWord (cmdOp w) 0 0).toNat = 2048 * (w.toNat / 2048) := by
      rw [cmdWord_toNat, cmdOp_toNat]
      rfl
    refine ⟨cmdWord (cmdOp w) 0 0, encode_decodeCmd_of_ne_wrb h,
      decodeCmd_congr_of_ne_wrb h (cmdOp_cmdWord ..), ?_, fun h1 => absurd h1 hop, fun _ => ?_⟩
    · omega
    · omega

/-- Settles O6: before the handshake every message is one byte; after it `MOTOR` is the one longer message. -/
theorem wireMessageIsTakenWhole : Obligations.WireMessageIsTakenWhole := by
  intro i phase m t events rest hwf hsel henc hshort
  cases i with
  | connect =>
    obtain rfl : phase = .disconnected := by simpa [Instr.selectedIn] using hsel
    cases henc
    rfl
  | motor payload =>
    obtain rfl : phase = .connectedIdle := by simpa [Instr.selectedIn] using hsel
    cases henc
    exact wireMessage_motor (of_decide_eq_true hwf) (hshort payload rfl)
  | otherWire b =>
    cases henc
    obtain ⟨rfl, -⟩ | ⟨rfl, hb⟩ := (otherWire_selectedIn_iff b _).mp hsel
    · rfl
    · simp [wireMessage, hb]
  | _ => cases henc

/-- Settles O1: the words are closed values, which the decoder evaluates. -/
theorem specWordsDecode : Obligations.SpecWordsDecode := by
  unfold Obligations.SpecWordsDecode
  decide

end Sys2Proof.Machine
end

section
/-! The command statements (spec/40_commands.md): what each command does where it is accepted, what it does elsewhere,
and which step of the system is an acceptance (R100). -/

namespace Sys2Proof.Machine

/-! ### What each command does (R101 to R104) -/

theorem State.accept_id (s : State) : s.accept id = s := by
  by_cases hi : s.block.pos.state = .idle
  · rw [State.accept_idle _ hi, id]
  · rw [State.accept_not_idle _ hi]

theorem exec_wrb (off : Offset) (val : Byte) (s : State) : exec (.wrb off val) s = .next (s.wrb off val) := rfl

theorem State.wrb_idle {s : State} (hi : s.block.pos.state = .idle) (off : Offset) (val : Byte) :
    s.wrb off val = s.memWrite off val := State.accept_idle _ hi

theorem State.wrb_not_idle {s : State} (hi : s.block.pos.state ≠ .idle) (off : Offset) (val : Byte) :
    s.wrb off val = s := State.accept_not_idle _ hi

theorem exec_run_idle {s : State} (hi : s.block.pos.state = .idle) : exec .run s = .next s.enterCycle :=
  congrArg Host.Outcome.next (State.accept_idle _ hi)

theorem exec_run_not_idle {s : State} (hi : s.block.pos.state ≠ .idle) : exec .run s = .next s :=
  congrArg Host.Outcome.next (State.accept_not_idle _ hi)

theorem exec_fatal_idle {s : State} (hi : s.block.pos.state = .idle) : exec .fatal s = .next s.raiseHalt :=
  congrArg Host.Outcome.next (State.accept_idle _ hi)

theorem exec_fatal_not_idle {s : State} (hi : s.block.pos.state ≠ .idle) : exec .fatal s = .next s :=
  congrArg Host.Outcome.next (State.accept_not_idle _ hi)

/-- Settles O17: the effect of an accepted `NOP` is the identity, which is also what happens elsewhere. -/
theorem nopChangesNothing : Obligations.NopChangesNothing :=
  fun s => congrArg Host.Outcome.next s.accept_id

/-- Settles O20: the operation's one answer is the refusal, whatever the state. -/
theorem reservedWrb7IsRefused : Obligations.ReservedWrb7IsRefused := fun _ _ => rfl

/-! ### The registers behind a frame write (R23, R102) -/

/-- A frame write reaches `SPEED[m]` at offset `m` only. -/
theorem State.memWrite_speed (s : State) (off : Offset) (v : Byte) (m : Motor) :
    (s.memWrite off v).block.speed[m] = if m.val = off.val then v else s.block.speed[m] := by
  rw [← State.memRead_speed, State.memRead_memWrite, State.memRead_speed]
  simp only [Fin.ext_iff]

/-- A frame write reaches `FLAG` at offset 6 only. -/
theorem State.memWrite_flag (s : State) (off : Offset) (v : Byte) :
    (s.memWrite off v).block.flag = if off = 6 then v else s.block.flag := by
  rw [← State.memRead_flag, State.memRead_memWrite, State.memRead_flag]
  simp only [eq_comm]

/-- Settles O18: an accepted `WRB` is one frame write, whose laws say what each read of the frame gives afterwards. -/
theorem wrbWritesOneFrameByte : Obligations.WrbWritesOneFrameByte := by
  intro off val s
  refine ⟨fun hi => ⟨s.memWrite off val, ?_, fun off' => s.memRead_memWrite off off' val, fun m => ?_,
    s.memWrite_flag off val, s.memWrite_block_cad off val, s.memWrite_block_coil off val, s.memWrite_block_pos off val,
    s.memWrite_handler off val, s.memWrite_convOut off val, s.memWrite_inputs off val, s.memWrite_trace off val⟩,
    fun hi => ?_⟩
  · rw [exec_wrb, State.wrb_idle hi]
  · rw [State.memWrite_speed, apply_ite BitVec.toInt]
  · rw [exec_wrb, State.wrb_not_idle hi]

/-! ### The conversion of `RUN` (R103, R120) -/

/-- The two-level map stays within one cycle's ticks (R121). -/
theorem convertWith_bounds {v : Int} (hlow : -128 ≤ v) (hhigh : v ≤ 127) :
    -20 ≤ convertWith 100 20 v ∧ convertWith 100 20 v ≤ 20 := by
  unfold convertWith
  split
  · decide
  · rename_i hv
    dsimp only
    have hq : ((v.natAbs : Int) - 1).tdiv (100 - 1) = ((v.natAbs : Int) - 1) / 99 :=
      Int.tdiv_eq_ediv_of_nonneg (by omega)
    rcases lt_or_gt_of_ne hv with hneg | hpos
    · rw [hq, Int.sign_eq_neg_one_of_neg hneg]
      omega
    · rw [hq, Int.sign_eq_one_of_pos hpos]
      omega

/-- The stored cadence word stands for the value of R120: nothing is lost in its eight bits. -/
theorem convert_toInt (v : Byte) : (convert v).toInt = convertWith 100 20 v.toInt := by
  obtain ⟨hlow, hhigh⟩ := sext8_range v
  have hbounds := convertWith_bounds hlow hhigh
  rw [sext8_eq_toInt] at hbounds
  have hword : convert v = BitVec.ofInt 8 (convertWith 100 20 v.toInt) := by
    rw [← sext8_eq_toInt]
    rfl
  rw [hword, BitVec.toInt_ofInt]
  exact Int.bmod_eq_of_le (by omega) (by omega)

/-- Settles O21: an accepted `RUN` is the cycle entry, which writes the conversions and the position. -/
theorem runConvertsAndStartsTheCycle : Obligations.RunConvertsAndStartsTheCycle := by
  intro s
  refine ⟨fun hi => ⟨s.enterCycle, exec_run_idle hi, fun m => ?_, rfl, rfl, rfl, rfl, rfl, rfl, rfl, rfl⟩,
    exec_run_not_idle⟩
  have hcad : s.enterCycle.block.cad[m] = convert s.block.speed[m] := convertAll_getElem s.block.speed m
  rw [hcad, convert_toInt]

/-! ### What is fetched, and what happens when nothing is, in each state of the block -/

theorem State.fetch_presented {s : State} {inp : Input} {word : CmdWord} {rest : List CmdWord}
    (hi : s.block.pos.state = .idle) (hc : s.handler.cmds = word :: rest) (hv : inp.cmdValid = true) :
    s.fetch inp = some (.cmd word, s.setHandler { s.handler with cmds := rest }) := by
  simp [State.fetch, hi, hc, hv]

theorem State.fetch_not_presented {s : State} {inp : Input} (hi : s.block.pos.state = .idle)
    (hc : s.handler.cmds ≠ []) (hv : inp.cmdValid = false) : s.fetch inp = none := by
  obtain ⟨word, rest, hc⟩ := List.exists_cons_of_ne_nil hc
  simp [State.fetch, hi, hc, hv]

theorem State.fetch_halted {s : State} (inp : Input) (hs : s.block.pos.state = .halted) : s.fetch inp = none := by
  simp [State.fetch, hs]

theorem State.fetch_evaluation {s : State} (inp : Input) (hs : s.block.pos.state = .cycling)
    (hw : s.block.pos.w = false) (hk : s.block.pos.k = 0) :
    s.fetch inp = some (.cad s.block.cad[s.block.pos.m], s) := by
  simp [State.fetch, hs, hw, hk]

theorem State.fetch_phase {s : State} (inp : Input) (hs : s.block.pos.state = .cycling)
    (hw : s.block.pos.w = false) (hk : s.block.pos.k ≠ 0) (hk4 : s.block.pos.k.val < 4) :
    s.fetch inp = some (.coil (onehot s.nextPhase), s) := by
  simp [State.fetch, hs, hw, hk, hk4]

/-- In a cycle nothing is fetched while a delay is in flight, nor after the fourth phase write. -/
theorem State.fetch_cycling_none {s : State} (inp : Input) (hs : s.block.pos.state = .cycling)
    (h : s.block.pos.w = true ∨ (s.block.pos.k ≠ 0 ∧ ¬ s.block.pos.k.val < 4)) : s.fetch inp = none := by
  rcases h with hw | ⟨hk, hk4⟩
  · simp [State.fetch, hs, hw]
  · simp [State.fetch, hs, hk, hk4]

theorem State.otherStep_cycling {s : State} (inp : Input) (hs : s.block.pos.state = .cycling) :
    s.otherStep inp = s.when (s.block.pos.w && inp.delayDone) State.completeDelay := by
  simp only [State.otherStep, hs, State.when]

theorem State.otherStep_halted {s : State} (inp : Input) (hs : s.block.pos.state = .halted) :
    s.otherStep inp = s := by
  simp only [State.otherStep, hs]

/-- The handler makes no step of its own while one of its commands is outstanding (R185). -/
theorem State.otherStep_outstanding {s : State} (inp : Input) (hi : s.block.pos.state = .idle)
    (hc : s.handler.cmds ≠ []) : s.otherStep inp = s := by
  simp [State.otherStep, hi, hc]

/-! ### Halted (R104, R202) -/

/-- Nothing is fetched in Halted and nothing else happens there. -/
theorem step_of_halted {s : State} (ho : s.takeInput.outside s.input = none) (hs : s.block.pos.state = .halted) :
    step s = .next s.takeInput := by
  have hs' : s.takeInput.block.pos.state = .halted := hs
  rw [step_of_nothing_fetched ho (State.fetch_halted _ hs'), State.otherStep_halted _ hs']

/-- Settles O22: of the events of the outside only a reset touches the block, and without one a step in Halted waits. -/
theorem fatalHaltsUntilReset : Obligations.FatalHaltsUntilReset := by
  intro s
  refine ⟨exec_fatal_idle, exec_fatal_not_idle, fun hs hr => ?_⟩
  cases ho : s.takeInput.outside s.input with
  | none => exact ⟨_, step_of_halted ho hs, rfl⟩
  | some t =>
    refine ⟨t, step_of_outside ho, ?_⟩
    rcases State.outside_cases ho with ⟨hr', -⟩ | ⟨-, -, rfl⟩ | ⟨-, -, -, rfl⟩
    · exact absurd (hr.symm.trans hr') (by decide)
    · rfl
    · rfl

/-! ### Acceptance (R100) -/

/-- Accepting a command is one step: the word is taken off the port, and the step is the command's whole meaning. -/
theorem step_of_presented {s : State} {word : CmdWord} {rest : List CmdWord}
    (ho : s.takeInput.outside s.input = none) (hi : s.block.pos.state = .idle)
    (hc : s.handler.cmds = word :: rest) (hv : s.input.cmdValid = true) :
    step s = exec (decodeCmd word) { s with inputs := s.inputs.tail, handler.cmds := rest } :=
  step_of_fetch ho (State.fetch_presented (s := s.takeInput) hi hc hv) rfl

/-- A command that is issued and not presented waits. -/
theorem step_of_not_presented {s : State} (ho : s.takeInput.outside s.input = none)
    (hi : s.block.pos.state = .idle) (hc : s.handler.cmds ≠ []) (hv : s.input.cmdValid = false) :
    step s = .next s.takeInput := by
  rw [step_of_nothing_fetched ho (State.fetch_not_presented (s := s.takeInput) hi hc hv),
    State.otherStep_outstanding (s := s.takeInput) _ hi hc]

/-! ### Outside Idle the handler, and with it every command it has issued, plays no part in a step -/

theorem State.when_setHandler {effect : State → State} (b : Bool) (s : State) (h : Handler)
    (he : effect (s.setHandler h) = (effect s).setHandler h) :
    (s.setHandler h).when b effect = (s.when b effect).setHandler h := by
  cases b
  · rfl
  · exact he

theorem State.completeDelay_setHandler (s : State) (h : Handler) :
    (s.setHandler h).completeDelay = s.completeDelay.setHandler h := by
  rw [State.completeDelay_spec, State.completeDelay_spec]
  rfl

/-- A micro-operation that writes the block and the trace only makes the same of them whatever the handler is. -/
theorem next_when_setHandler {effect : State → State} (b : Bool) {s : State}
    (he : ∀ h : Handler, effect (s.setHandler h) = (effect s).setHandler h) :
    ∃ u : State, ∀ h : Handler, (.next ((s.setHandler h).when b effect) : Host.Outcome State Fault Refusal) =
      .next (u.setHandler h) :=
  ⟨s.when b effect, fun h => congrArg Host.Outcome.next (State.when_setHandler b s h (he h))⟩

theorem exec_phase_setHandler (m : Motor) (p : Phase) (s : State) :
    ∃ u : State, ∀ h : Handler, exec (.phase m p) (s.setHandler h) = .next (u.setHandler h) :=
  next_when_setHandler (effect := (·.writePhase m p)) (s.mayWritePhase m) fun _ => rfl

/-- The four selections of R143. -/
theorem exec_selection_setHandler (m : Motor) (t c : Byte) (s : State) :
    ∃ u : State, ∀ h : Handler, exec (decodeCad m t c) (s.setHandler h) = .next (u.setHandler h) := by
  rcases decodeCad_cases m t c with ⟨-, hd⟩ | ⟨-, -, hd⟩ | ⟨-, -, hd⟩ | ⟨-, -, hd⟩ <;> rw [hd]
  · exact next_when_setHandler (effect := (·.writeStop m)) (s.evaluating m) fun _ => rfl
  · exact next_when_setHandler (effect := (·.writePhase m (stepPhase true 0))) (s.evaluating m) fun _ => rfl
  · exact next_when_setHandler (effect := (·.writePhase m (stepPhase false 0))) (s.evaluating m) fun _ => rfl
  · exact next_when_setHandler (effect := State.advance) (s.evaluating m) fun _ => rfl

/-- A step of a cycle makes the same of everything but the handler, which it leaves alone. -/
theorem step_of_cycling_setHandler {s : State} (hs : s.block.pos.state = .cycling)
    (ho : ∀ h : Handler, (s.setHandler h).takeInput.outside s.input = none) :
    ∃ u : State, ∀ h : Handler, step (s.setHandler h) = .next (u.setHandler h) := by
  have waits (hf : s.block.pos.w = true ∨ (s.block.pos.k ≠ 0 ∧ ¬ s.block.pos.k.val < 4)) :
      ∃ u : State, ∀ h : Handler, step (s.setHandler h) = .next (u.setHandler h) := by
    obtain ⟨u, hu⟩ := next_when_setHandler (s.block.pos.w && s.input.delayDone)
      (State.completeDelay_setHandler s.takeInput)
    refine ⟨u, fun h => ?_⟩
    rw [step_of_nothing_fetched (s := s.setHandler h) (ho h) (State.fetch_cycling_none _ hs hf),
      State.otherStep_cycling (s := (s.setHandler h).takeInput) _ hs]
    exact hu h
  cases hw : s.block.pos.w with
  | true => exact waits (.inl hw)
  | false =>
    by_cases hk : s.block.pos.k = 0
    · obtain ⟨u, hu⟩ :=
        exec_selection_setHandler s.block.pos.m s.block.pos.t s.block.cad[s.block.pos.m] s.takeInput
      exact ⟨u, fun h => (step_of_fetch (s := s.setHandler h) (ho h) (State.fetch_evaluation _ hs hw hk)
        rfl).trans (hu h)⟩
    · by_cases hk4 : s.block.pos.k.val < 4
      · obtain ⟨u, hu⟩ := exec_phase_setHandler s.block.pos.m s.nextPhase s.takeInput
        exact ⟨u, fun h => (step_of_fetch (s := s.setHandler h) (ho h) (State.fetch_phase _ hs hw hk hk4)
          (decodeCoil_onehot _ _)).trans (hu h)⟩
      · exact waits (.inr ⟨hk, hk4⟩)

/-- Outside Idle, a step that no event of the host makes leaves the handler alone and does not look at it. -/
theorem step_of_not_idle_setHandler {s : State} (hi : s.block.pos.state ≠ .idle) (hs : s.input.restart = false)
    (hg : s.input.giveUp = false) :
    ∃ u : State, ∀ h : Handler, step (s.setHandler h) = .next (u.setHandler h) := by
  cases hr : s.input.rst with
  | true => exact ⟨s.takeInput.resetBlock, fun h => step_of_rst hr⟩
  | false =>
    have ho (h : Handler) : (s.setHandler h).takeInput.outside s.input = none :=
      State.outside_eq_none _ hr hs hg
    cases hst : s.block.pos.state with
    | idle => exact absurd hst hi
    | cycling => exact step_of_cycling_setHandler hst ho
    | halted => exact ⟨s.takeInput, fun h => step_of_halted (ho h) hst⟩

/-- Settles O8: in Idle the word presented is what is fetched; elsewhere the step is the same for every handler, so for
every list of commands. -/
theorem commandsAreAcceptedExactlyInIdle : Obligations.CommandsAreAcceptedExactlyInIdle := by
  intro s hs hg
  refine ⟨fun w rest hi hc hr hv => step_of_presented (State.outside_eq_none _ hr hs hg) hi hc hv,
    fun hi hc hr hv => step_of_not_presented (State.outside_eq_none _ hr hs hg) hi hc hv, fun hi _ => ?_⟩
  obtain ⟨u, hu⟩ := step_of_not_idle_setHandler hi hs hg
  exact ⟨_, hu s.handler, rfl, fun cmds => ⟨_, hu { s.handler with cmds := cmds }, rfl, rfl⟩⟩

/-! ### `LOADFRAME`: several `WRB`s in a row (R105) -/

/-- The bytes of a frame by offset: six speeds and the flag (R72). -/
def frameByte (v : Vector Byte 6) (f : Byte) (off : Offset) : Byte := if h : off.val < 6 then v[off.val] else f

/-- The offsets of a frame in the order the bytes arrive on the wire (R105). -/
def offsets : List Offset := [0, 1, 2, 3, 4, 5, 6]

/-- One `WRB` to each of the offsets in turn. -/
def State.wrbEach (bytes : Offset → Byte) (offs : List Offset) (s : State) : State :=
  offs.foldl (fun s off => s.wrb off (bytes off)) s

/-- The command words of those `WRB`s. -/
def wrbWords (bytes : Offset → Byte) (offs : List Offset) : List CmdWord :=
  offs.map fun off => wrbWord off (bytes off)

theorem frameWords_eq_wrbWords (v : Vector Byte 6) (f : Byte) :
    frameWords v f = wrbWords (frameByte v f) offsets := rfl

theorem exec_loadframe (v : Vector Byte 6) (f : Byte) (s : State) :
    exec (.loadframe v f) s = .next (s.wrbEach (frameByte v f) offsets) := by
  simp [exec, execLoadframe, State.wrbEach, offsets, frameByte]

theorem State.wrbEach_cons (bytes : Offset → Byte) (off : Offset) (offs : List Offset) (s : State) :
    s.wrbEach bytes (off :: offs) = (s.wrb off (bytes off)).wrbEach bytes offs := rfl

theorem State.wrbEach_not_idle {s : State} (hi : s.block.pos.state ≠ .idle) (bytes : Offset → Byte)
    (offs : List Offset) : s.wrbEach bytes offs = s := by
  induction offs with
  | nil => rfl
  | cons off offs ih => rw [State.wrbEach_cons, State.wrb_not_idle hi, ih]

/-- A `WRB` writes the frame and nothing else. -/
theorem State.wrb_frame_only (s : State) (off : Offset) (val : Byte) :
    ∃ speed flag, s.wrb off val = { s with block.speed := speed, block.flag := flag } := by
  by_cases hi : s.block.pos.state = .idle
  · rw [State.wrb_idle hi, State.memWrite]
    split
    · exact ⟨_, _, rfl⟩
    · exact ⟨_, _, rfl⟩
  · exact ⟨_, _, State.wrb_not_idle hi off val⟩

/-- Any number of `WRB`s write the frame and nothing else. -/
theorem State.wrbEach_frame_only (bytes : Offset → Byte) (offs : List Offset) (s : State) :
    ∃ speed flag, s.wrbEach bytes offs = { s with block.speed := speed, block.flag := flag } := by
  induction offs generalizing s with
  | nil => exact ⟨_, _, rfl⟩
  | cons off offs ih =>
    obtain ⟨speed, flag, hone⟩ := s.wrb_frame_only off (bytes off)
    obtain ⟨speed', flag', hrest⟩ := ih (s.wrb off (bytes off))
    exact ⟨speed', flag', by rw [State.wrbEach_cons, hrest, hone]⟩

/-- In Idle the offsets written hold the new bytes and the others their old ones. -/
theorem State.memRead_wrbEach {s : State} (hi : s.block.pos.state = .idle) (bytes : Offset → Byte)
    (offs : List Offset) (off : Offset) :
    (s.wrbEach bytes offs).memRead off = if off ∈ offs then bytes off else s.memRead off := by
  induction offs generalizing s with
  | nil => rw [if_neg List.not_mem_nil]; rfl
  | cons first offs ih =>
    rw [State.wrbEach_cons, ih (by rwa [State.wrb_pos]), State.wrb_idle hi, State.memRead_memWrite]
    by_cases hmem : off ∈ offs
    · rw [if_pos hmem, if_pos (List.mem_cons_of_mem _ hmem)]
    · by_cases hfirst : off = first <;> simp [hmem, hfirst]

theorem State.memWrite_setHandler (s : State) (h : Handler) (off : Offset) (val : Byte) :
    (s.setHandler h).memWrite off val = (s.memWrite off val).setHandler h := by
  unfold State.memWrite
  split
  · rfl
  · rfl

theorem State.wrb_setHandler (s : State) (h : Handler) (off : Offset) (val : Byte) :
    (s.setHandler h).wrb off val = (s.wrb off val).setHandler h := by
  by_cases hi : s.block.pos.state = .idle
  · rw [State.wrb_idle hi, State.wrb_idle (s := s.setHandler h) hi, State.memWrite_setHandler]
  · rw [State.wrb_not_idle hi, State.wrb_not_idle (s := s.setHandler h) hi]

theorem State.wrbEach_setHandler (bytes : Offset → Byte) (offs : List Offset) (s : State) (h : Handler) :
    (s.setHandler h).wrbEach bytes offs = (s.wrbEach bytes offs).setHandler h := by
  induction offs generalizing s with
  | nil => rfl
  | cons off offs ih => rw [State.wrbEach_cons, State.wrb_setHandler, ih, State.wrbEach_cons]

/-- The next command issued, accepted under a quiet outside, when it is a `WRB`. -/
theorem step_of_quiet_wrb {s : State} {off : Offset} {val : Byte} {rest : List CmdWord}
    (hi : s.block.pos.state = .idle) (hq : s.inputs = []) (hc : s.handler.cmds = wrbWord off val :: rest) :
    step s = .next ((s.wrb off val).setHandler { s.handler with cmds := rest }) := by
  have hin : s.input = .quiet := by rw [State.input, hq]; rfl
  have ho : s.takeInput.outside s.input = none := by rw [hin]; rfl
  have hstate : ({ s with inputs := s.inputs.tail, handler.cmds := rest } : State) =
      s.setHandler { s.handler with cmds := rest } := by
    rw [hq, List.tail_nil, ← hq]
    rfl
  rw [step_of_presented ho hi hc (by rw [hin]; rfl), hstate, decodeCmd_wrbWord, exec_wrb, State.wrb_setHandler]

/-- Under a quiet outside, `WRB`s that are next on the port are accepted one by one, a step each. -/
theorem run_of_quiet_wrbs {s : State} {bytes : Offset → Byte} {offs : List Offset} {rest : List CmdWord}
    (hi : s.block.pos.state = .idle) (hq : s.inputs = []) (hc : s.handler.cmds = wrbWords bytes offs ++ rest) :
    Sys2Proof.core.run offs.length s =
      .next ((s.wrbEach bytes offs).setHandler { s.handler with cmds := rest }) := by
  induction offs generalizing s with
  | nil =>
    have hrest : s.handler = { s.handler with cmds := rest } := by rw [← show s.handler.cmds = rest from hc]
    rw [← hrest]
    rfl
  | cons off offs ih =>
    obtain ⟨speed, flag, hone⟩ := s.wrb_frame_only off (bytes off)
    have hstep := step_of_quiet_wrb hi hq hc
    have hrun := ih (s := (s.wrb off (bytes off)).setHandler { s.handler with cmds := wrbWords bytes offs ++ rest })
      (by rwa [State.setHandler_block, State.wrb_pos]) (by rw [hone]; exact hq) rfl
    have hfirst : Sys2Proof.core.run (offs.length + 1) s = Sys2Proof.core.run offs.length
        ((s.wrb off (bytes off)).setHandler { s.handler with cmds := wrbWords bytes offs ++ rest }) := by
      simp only [Host.Core.run, core, hstep]
      rfl
    rw [List.length_cons, hfirst, hrun, State.wrbEach_setHandler]
    rfl

theorem mem_offsets : ∀ off : Offset, off ∈ offsets := by decide

theorem mem_take_offsets : ∀ off : Offset, ∀ j ≤ 7, off ∈ offsets.take j ↔ off.val < j := by decide

/-- An accepted `LOADFRAME` leaves no byte of the old frame and touches nothing else. -/
theorem exec_loadframe_idle {s : State} (hi : s.block.pos.state = .idle) (v : Vector Byte 6) (f : Byte) :
    exec (.loadframe v f) s = .next { s with block.speed := v, block.flag := f } := by
  obtain ⟨speed, flag, hall⟩ := s.wrbEach_frame_only (frameByte v f) offsets
  have hread (off : Offset) : (s.wrbEach (frameByte v f) offsets).memRead off =
      ({ s with block.speed := v, block.flag := f } : State).memRead off := by
    rw [State.memRead_wrbEach hi, if_pos (mem_offsets off)]
    rfl
  obtain ⟨hspeed, hflag⟩ := State.frame_ext hread
  rw [hall] at hspeed hflag
  dsimp only at hspeed hflag
  rw [exec_loadframe, hall, hspeed, hflag]

/-- Settles O23: the first `j` words of a `LOADFRAME` are `WRB`s to the first `j` offsets, accepted a step each, and exec
carries out all seven at once. -/
theorem loadframeIsSevenWrbsInOrder : Obligations.LoadframeIsSevenWrbsInOrder := by
  intro v f s words rest hw
  obtain rfl : frameWords v f = words := Encoded.cmds.inj hw
  refine ⟨?_, fun hi => exec_loadframe_idle hi v f, fun hi => ?_, fun hi hq hc j hj => ?_⟩
  · simp only [frameWords, List.map, decodeCmd_wrbWord]
  · rw [exec_loadframe, State.wrbEach_not_idle hi]
  · have hsplit : frameWords v f ++ rest =
        wrbWords (frameByte v f) (offsets.take j) ++ ((frameWords v f).drop j ++ rest) := by
      rw [frameWords_eq_wrbWords, wrbWords, wrbWords, List.map_take, ← List.append_assoc, List.take_append_drop]
    have hrun := run_of_quiet_wrbs hi hq (hc.trans hsplit)
    rw [List.length_take_of_le (show j ≤ offsets.length from hj)] at hrun
    obtain ⟨speed, flag, hframe⟩ := s.wrbEach_frame_only (frameByte v f) (offsets.take j)
    refine ⟨_, hrun, rfl, fun off => ?_, ?_⟩
    · have hread := State.memRead_wrbEach hi (frameByte v f) (offsets.take j) off
      simp only [mem_take_offsets off j hj] at hread
      exact hread
    · rw [hframe]
      exact ⟨rfl, rfl, rfl, rfl⟩

end Sys2Proof.Machine
end

section
/-! PROOFS. The converter (spec/41_converter.md): its three cases for every parameter value of R9, what they say of the
byte `convert` answers, and `CONV` by itself. -/

namespace Sys2Proof.Machine

/-! ### The three cases of the conversion, for any parameter values (R122) -/

theorem convertWith_zero (maxSpeed maxCycles : Int) : convertWith maxSpeed maxCycles 0 = 0 := rfl

theorem convertWith_of_ne_zero {v : Int} (maxSpeed maxCycles : Int) (hv : v ≠ 0) :
    convertWith maxSpeed maxCycles v =
      ((maxCycles - 1) * (1 - ((v.natAbs : Int) - 1).tdiv (maxSpeed - 1)) + 1) * v.sign :=
  if_neg hv

/-- Below `MAX_SPEED` the quotient is 0 and the magnitude is the slowest cadence. -/
theorem convertWith_of_lt {maxSpeed v : Int} (maxCycles : Int) (hv : v ≠ 0) (hlt : (v.natAbs : Int) < maxSpeed) :
    convertWith maxSpeed maxCycles v = v.sign * maxCycles := by
  have hquot : ((v.natAbs : Int) - 1).tdiv (maxSpeed - 1) = 0 := Int.tdiv_eq_zero_of_lt (by omega) (by omega)
  rw [convertWith_of_ne_zero _ _ hv, hquot]
  ring

/-- From `MAX_SPEED` to `2 * (MAX_SPEED - 1)`, which no speed of eight bits exceeds under R9, the quotient is 1 and the
magnitude is 1. -/
theorem convertWith_of_ge {maxSpeed v : Int} (maxCycles : Int) (hmax : 1 < maxSpeed)
    (hge : maxSpeed ≤ (v.natAbs : Int)) (htwo : (v.natAbs : Int) ≤ 2 * (maxSpeed - 1)) :
    convertWith maxSpeed maxCycles v = v.sign := by
  have hquot : ((v.natAbs : Int) - 1).tdiv (maxSpeed - 1) = 1 := by
    rw [Int.tdiv_eq_ediv_of_nonneg (by omega), Int.ediv_eq_iff_of_pos (by omega)]
    omega
  rw [convertWith_of_ne_zero _ _ (by omega), hquot]
  ring

/-- A sign times a magnitude of at least 0 stays within that magnitude. -/
theorem sign_mul_bounds (v : Int) {bound : Int} (hbound : 0 ≤ bound) :
    -bound ≤ v.sign * bound ∧ v.sign * bound ≤ bound := by
  rcases Int.sign_trichotomy v with hsign | hsign | hsign <;> rw [hsign] <;> omega

/-- Settles O27: the two cases of a nonzero speed, and the range that follows from them. -/
theorem conversionForEveryParameterValue : Obligations.ConversionForEveryParameterValue := by
  intro maxSpeed maxCycles v hspeed _ hcycles _ hlow hhigh
  have hslow (hv : v ≠ 0) (hlt : (v.natAbs : Int) ≤ maxSpeed - 1) :
      convertWith maxSpeed maxCycles v = v.sign * maxCycles := convertWith_of_lt maxCycles hv (by omega)
  have hfast (hge : maxSpeed ≤ (v.natAbs : Int)) : convertWith maxSpeed maxCycles v = v.sign :=
    convertWith_of_ge maxCycles (by omega) hge (by omega)
  refine ⟨fun hv => by rw [hv, convertWith_zero], hslow, hfast, ?_⟩
  by_cases hv : v = 0
  · rw [hv, convertWith_zero]
    omega
  by_cases hge : maxSpeed ≤ (v.natAbs : Int)
  · have hsign := sign_mul_bounds v (bound := 1) (by omega)
    rw [hfast hge]
    omega
  · rw [hslow hv (by omega)]
    exact sign_mul_bounds v (by omega)

/-! ### The conversion of a speed byte with the block's parameters (R120, R122, R123) -/

/-- Settles O24: the cadence word stands for the value of `convertWith`, whose definition is the formula. -/
theorem convertIsTheTruncatingFormula : Obligations.ConvertIsTheTruncatingFormula := convert_toInt

theorem convert_toInt_of_zero {v : Byte} (hv : v.toInt = 0) : (convert v).toInt = 0 := by
  rw [convert_toInt, hv, convertWith_zero]

theorem convert_toInt_of_lt {v : Byte} (hv : v.toInt ≠ 0) (hlt : v.toInt.natAbs < 100) :
    (convert v).toInt = v.toInt.sign * 20 := by
  rw [convert_toInt, convertWith_of_lt 20 hv (by omega)]

theorem convert_toInt_of_ge {v : Byte} (hge : 100 ≤ v.toInt.natAbs) : (convert v).toInt = v.toInt.sign := by
  have hrange := sext8_range v
  rw [sext8_eq_toInt] at hrange
  rw [convert_toInt, convertWith_of_ge 20 (by omega) (by omega) (by omega)]

/-- Settles O26: on each of the five ranges the case and the sign are fixed, hence the value, hence the byte. -/
theorem convertIsTheTwoLevelMap : Obligations.ConvertIsTheTwoLevelMap := by
  refine fun v => ⟨fun hv => ?_, fun hlow hhigh => ?_, fun hv => ?_, fun hlow hhigh => ?_, fun hv => ?_⟩ <;>
    apply BitVec.eq_of_toInt_eq
  · rw [convert_toInt_of_ge (by omega), Int.sign_eq_neg_one_of_neg (by omega)]
    rfl
  · rw [convert_toInt_of_lt (by omega) (by omega), Int.sign_eq_neg_one_of_neg (by omega)]
    rfl
  · exact convert_toInt_of_zero hv
  · rw [convert_toInt_of_lt (by omega) (by omega), Int.sign_eq_one_of_pos (by omega)]
    rfl
  · rw [convert_toInt_of_ge (by omega), Int.sign_eq_one_of_pos (by omega)]
    rfl

/-- Settles O28: each property is read off the case its speed falls in; the sign takes both nonzero cases. -/
theorem conversionEndPointsAndSign : Obligations.ConversionEndPointsAndSign := by
  intro v
  simp only [sext8_eq_toInt]
  refine ⟨fun hone => ?_, fun hmax => ?_, convert_toInt_of_zero, fun hv => ?_⟩
  · rw [convert_toInt_of_lt (by omega) (by omega), Int.natAbs_mul, Int.natAbs_sign_of_ne_zero (by omega)]
    rfl
  · rw [convert_toInt_of_ge hmax.ge, Int.natAbs_sign_of_ne_zero (Int.natAbs_ne_zero.mp (hmax.trans_ne (by decide)))]
  · rcases Nat.lt_or_ge v.toInt.natAbs 100 with hlt | hge
    · rw [convert_toInt_of_lt hv hlt, Int.sign_mul, Int.sign_sign]
      exact mul_one _
    · rw [convert_toInt_of_ge hge, Int.sign_sign]

/-! ### `CONV` by itself (R120) -/

theorem exec_conv (v : Byte) (s : State) : exec (.conv v) s = .next (s.setConvOut (convert v)) := rfl

/-- Settles O25: the one field `CONV` sets is the converter's output, which holds the value of the formula. -/
theorem convReturnsItsValueAndWritesNoRegister : Obligations.ConvReturnsItsValueAndWritesNoRegister := fun v s =>
  ⟨s.setConvOut (convert v), exec_conv v s, convertIsTheTruncatingFormula v, s.setConvOut_block _,
    s.setConvOut_handler _, s.setConvOut_inputs _, s.setConvOut_trace _⟩

end Sys2Proof.Machine
end

section
/-! The scheduler statements (spec/42_scheduler.md), one step: which operation a motor's cadence selects, what the block
does while a cycle runs and while it is Idle, and that every step of a cycle goes forward. -/

namespace Sys2Proof.Machine

/-! ### The selection (R143) and the advance (R146) -/

theorem period_eq_natAbs_toInt (c : Byte) : period c = c.toInt.natAbs :=
  congrArg Int.natAbs (sext8_eq_toInt c)

/-- The tick condition of R143 on naturals is the one on integers. -/
theorem mod_period_eq_zero_iff (t c : Byte) :
    t.toNat % period c = 0 ↔ (t.toNat : Int) % (c.toInt.natAbs : Int) = 0 := by
  rw [period_eq_natAbs_toInt, ← Int.natCast_mod, Int.natCast_eq_zero]

/-- Settles O5: the signed value's four cases are those the decoder tests. -/
theorem selectionFollowsCadenceAndTick : Obligations.SelectionFollowsCadenceAndTick := by
  intro m t c
  refine ⟨fun hc => ?_, fun hc ht => ?_, fun hc ht => ?_, fun hc ht => ?_⟩ <;> rw [← sext8_eq_toInt] at hc
  · rw [(sext8_eq_zero_iff c).mp hc, decodeCad_zero]
  · refine decodeCad_stepf hc ((mod_period_eq_zero_iff t c).mpr ?_)
    rwa [Int.natAbs_of_nonneg (sext8_eq_toInt c ▸ hc.le)]
  · refine decodeCad_stepr hc ((mod_period_eq_zero_iff t c).mpr ?_)
    rwa [Int.ofNat_natAbs_of_nonpos (sext8_eq_toInt c ▸ hc.le)]
  · exact decodeCad_hold hc (mt (mod_period_eq_zero_iff t c).mp ht)

/-- Settles O29: the three branches of the advance. -/
theorem advanceFollowsTheLoopOrder : Obligations.AdvanceFollowsTheLoopOrder := by
  intro p hs
  refine ⟨fun hm => ?_, fun hm ht => ?_, fun hm ht => p.advance_exit hm ht⟩
  · rw [p.advance_motor hm, hs]
  · rw [p.advance_tick hm ht, hs]

/-! ### What each step of a cycle is, with no event of the outside -/

section
variable {s : State} (ho : s.takeInput.outside s.input = none) (hs : s.block.pos.state = .cycling)
include ho hs

theorem step_of_evaluation (hk : s.block.pos.k = 0) (hw : s.block.pos.w = false) :
    step s = exec (decodeCad s.block.pos.m s.block.pos.t s.block.cad[s.block.pos.m]) s.takeInput :=
  step_of_fetch ho (State.fetch_evaluation (s := s.takeInput) _ hs hw hk) rfl

theorem step_of_phase (hk : s.block.pos.k ≠ 0) (hk4 : s.block.pos.k.val < 4) (hw : s.block.pos.w = false) :
    step s = exec (.phase s.block.pos.m s.nextPhase) s.takeInput :=
  step_of_fetch ho (State.fetch_phase (s := s.takeInput) _ hs hw hk hk4) (decodeCoil_onehot _ _)

theorem step_of_delay (hw : s.block.pos.w = true) (hd : s.input.delayDone = true) :
    step s = .next s.takeInput.completeDelay := by
  have hs' : s.takeInput.block.pos.state = .cycling := hs
  have hdone : (s.takeInput.block.pos.w && s.input.delayDone) = true := Bool.and_eq_true_iff.mpr ⟨hw, hd⟩
  rw [step_of_nothing_fetched ho (State.fetch_cycling_none _ hs' (.inl hw)), State.otherStep_cycling _ hs',
    State.when_true _ hdone]

end

/-- Settles O9: the evaluation fetches the cadence word, which decodes to its selection. -/
theorem evaluationRunsTheSelectedOperation : Obligations.EvaluationRunsTheSelectedOperation :=
  fun _ hr hs hg hst hk hw => step_of_evaluation (State.outside_eq_none _ hr hs hg) hst hk hw

/-! ### What each micro-operation does at its position (R145, R162 to R165) -/

section
variable {s : State} {m : Motor} (he : s.evaluating m = true)
include he

theorem exec_hold_evaluating (c : Byte) : exec (.hold m c) s = .next s.advance :=
  congrArg Host.Outcome.next (State.when_true _ he)

theorem exec_stop_evaluating : exec (.stop m) s = .next (s.writeStop m) :=
  congrArg Host.Outcome.next (State.when_true _ he)

theorem exec_stepf_evaluating (c : Byte) : exec (.stepf m c) s = .next (s.writePhase m (stepPhase true 0)) :=
  congrArg Host.Outcome.next (State.when_true _ he)

theorem exec_stepr_evaluating (c : Byte) : exec (.stepr m c) s = .next (s.writePhase m (stepPhase false 0)) :=
  congrArg Host.Outcome.next (State.when_true _ he)

end

theorem exec_phase_mayWritePhase {s : State} {m : Motor} (hp : s.mayWritePhase m = true) (p : Phase) :
    exec (.phase m p) s = .next (s.writePhase m p) :=
  congrArg Host.Outcome.next (State.when_true _ hp)

/-- Settles O30: a `HOLD` at its evaluation is the advance, which writes the position only. -/
theorem holdOnlyAdvances : Obligations.HoldOnlyAdvances := by
  intro m c s hs hm hk hw
  rw [exec_hold_evaluating ((s.evaluating_iff m).mpr ⟨hs, hm, hk, hw⟩), State.advance_spec]

/-! ### The block while a cycle runs (R149), and while it is Idle (R140) -/

/-- Of the events of the outside only a reset touches the block (R11). -/
theorem State.outside_block {s t : State} {inp : Input} (hr : inp.rst = false) (h : s.outside inp = some t) :
    t.block = s.block := by
  rcases State.outside_cases h with ⟨hr', -⟩ | ⟨-, -, rfl⟩ | ⟨-, -, -, rfl⟩
  · exact absurd (hr.symm.trans hr') (by decide)
  · rfl
  · rfl

/-- Whether an event of the outside happens is for the outside alone to say. -/
theorem State.outside_eq_none_congr {s : State} {inp : Input} (u : State) (h : s.outside inp = none) :
    u.outside inp = none := by
  revert h
  unfold State.outside
  split_ifs <;> simp

/-- A step of a cycle is never refused. -/
theorem step_of_cycling_next {s : State} (hs : s.block.pos.state = .cycling) : ∃ t, step s = .next t := by
  cases ho : s.takeInput.outside s.input with
  | some t => exact ⟨t, step_of_outside ho⟩
  | none =>
    obtain ⟨u, hu⟩ :=
      step_of_cycling_setHandler hs fun h => State.outside_eq_none_congr (s.setHandler h).takeInput ho
    exact ⟨_, hu s.handler⟩

/-- Outside Idle no command is accepted (R100). -/
theorem State.not_accepts_of_cycling {s : State} (hs : s.block.pos.state = .cycling) (i : Instr) : ¬ s.Accepts i :=
  fun ⟨hi, _⟩ => absurd (hs.symm.trans hi) (by decide)

/-- Settles O41: in a cycle no command is accepted, and of the moves of the block only accepted commands change the
frame or the cadence table, or halt. -/
theorem noFrameOrCadenceChangeDuringACycle : Obligations.NoFrameOrCadenceChangeDuringACycle := by
  intro s hr hs
  have hno := State.not_accepts_of_cycling hs
  obtain ⟨t, ht⟩ := step_of_cycling_next hs
  refine ⟨t, ht, ?_⟩
  rcases step_block ht with ⟨hr', -⟩ | hb | ⟨-, hm⟩
  · exact absurd (hr.symm.trans hr') (by decide)
  · rw [hb, hs]
    exact ⟨rfl, rfl, rfl, by decide⟩
  rcases hm.frame_cases with ⟨off, val, ha, -⟩ | ⟨hspeed, hflag, hcad | ⟨ha, -⟩⟩
  · exact absurd ha (hno _)
  · refine ⟨hspeed, hflag, hcad, ?_⟩
    rcases hm.state_cases with he | ⟨-, ha⟩ | ⟨-, ha⟩ | ⟨-, -, -, he⟩
    · rw [he, hs]
      decide
    · exact absurd ha (hno _)
    · exact absurd ha (hno _)
    · rw [he]
      decide
  · exact absurd ha (hno _)

/-- A wire operation is never refused. -/
theorem exec_wire_next {i : Instr} (hi : i = .connect ∨ (∃ p, i = .motor p) ∨ ∃ b, i = .otherWire b)
    (s : State) : ∃ t, exec i s = .next t := by
  rcases hi with rfl | ⟨p, rfl⟩ | ⟨b, rfl⟩
  · exact ⟨_, rfl⟩
  · exact ⟨_, rfl⟩
  · exact ⟨_, rfl⟩

/-- In Idle with no command issued the handler makes the step, or all wait: the block has no step of its own (R140). -/
theorem step_block_of_none_issued {s : State} (ho : s.takeInput.outside s.input = none)
    (hi : s.block.pos.state = .idle) (hc : s.handler.cmds = []) : ∃ t, step s = .next t ∧ t.block = s.block := by
  cases hf : s.takeInput.fetch s.input with
  | none =>
    refine ⟨_, step_of_nothing_fetched ho hf, ?_⟩
    rcases s.takeInput.otherStep_cases s.input with ⟨hs, -⟩ | ⟨-, -, he⟩ | he
    · exact absurd (hi.symm.trans hs) (by decide)
    · rw [he, State.setHandler_block, State.takeInput_block]
    · rw [he, State.takeInput_block]
  | some p =>
    obtain ⟨e, u⟩ := p
    obtain ⟨i, hd⟩ := State.fetch_decodes hf
    rcases State.fetch_cases hf with ⟨hs, -⟩ | ⟨hs, -⟩ | ⟨word, rest, -, -, hc', -⟩ |
      ⟨events, rest, -, -, -, rfl, rfl⟩
    · exact absurd (hi.symm.trans hs) (by decide)
    · exact absurd (hi.symm.trans hs) (by decide)
    · exact absurd (hc.symm.trans hc') (List.cons_ne_nil _ _).symm
    · have hwire := decodeWire_cases hd
      obtain ⟨t, ht⟩ := exec_wire_next hwire (s.takeInput.setHandler { s.handler with rx := rest })
      exact ⟨t, (step_of_fetch ho hf hd).trans ht, (exec_wire_block hwire ht).trans rfl⟩

/-- Settles O42: an event of the host leaves the block alone; without one, the step is the handler's own or waits. -/
theorem idleBlockChangesOnlyByACommand : Obligations.IdleBlockChangesOnlyByACommand := by
  intro s hr hi h
  cases ho : s.takeInput.outside s.input with
  | some t => exact ⟨t, step_of_outside ho, (State.outside_block hr ho).trans s.takeInput_block⟩
  | none =>
    by_cases hc : s.handler.cmds = []
    · exact step_block_of_none_issued ho hi hc
    rcases h with hc' | hv | hs | hg
    · exact absurd hc' hc
    · exact ⟨_, step_of_not_presented ho hi hc hv, rfl⟩
    · exact absurd ((State.outside_of_restart _ hr hs).symm.trans ho) (Option.some_ne_none _)
    · cases hs : s.input.restart with
      | true => exact absurd ((State.outside_of_restart _ hr hs).symm.trans ho) (Option.some_ne_none _)
      | false => exact absurd ((State.outside_of_giveUp _ hr hs hg).symm.trans ho) (Option.some_ne_none _)

/-! ### Every step takes one entry of the outside's schedule -/

theorem State.accept_inputs {effect : State → State} {s : State} (h : (effect s).inputs = s.inputs) :
    (s.accept effect).inputs = s.inputs := by
  unfold State.accept
  split
  · exact h
  · rfl

theorem State.when_inputs {effect : State → State} {s : State} (b : Bool) (h : (effect s).inputs = s.inputs) :
    (s.when b effect).inputs = s.inputs := by
  cases b
  · rfl
  · exact h

/-- No operation looks at or changes the outside's schedule. -/
theorem exec_inputs {i : Instr} {s t : State} (h : exec i s = .next t) : t.inputs = s.inputs := by
  cases i with
  | nop => cases h; exact State.accept_inputs rfl
  | wrb off val => cases h; exact State.accept_inputs (s.memWrite_inputs off val)
  | wrb7 val => cases h
  | run => cases h; exact State.accept_inputs rfl
  | fatal => cases h; exact State.accept_inputs rfl
  | loadframe v f =>
    obtain ⟨speed, flag, hframe⟩ := s.wrbEach_frame_only (frameByte v f) offsets
    rw [exec_loadframe, hframe] at h
    cases h
    rfl
  | conv v => cases h; rfl
  | stop m => cases h; exact State.when_inputs _ rfl
  | stepf m c => cases h; exact State.when_inputs _ rfl
  | stepr m c => cases h; exact State.when_inputs _ rfl
  | hold m c => cases h; exact State.when_inputs _ rfl
  | phase m p => cases h; exact State.when_inputs _ rfl
  | connect => cases h; exact State.when_inputs _ rfl
  | motor payload => cases h; exact State.when_inputs _ rfl
  | otherWire b => cases h; exact State.when_inputs _ rfl

theorem State.completeDelay_inputs (s : State) : s.completeDelay.inputs = s.inputs := by
  rw [State.completeDelay_spec]
  rfl

theorem State.fetch_inputs {s u : State} {inp : Input} {e : Encoded} (h : s.fetch inp = some (e, u)) :
    u.inputs = s.inputs := by
  rcases State.fetch_cases h with ⟨-, -, -, rfl, -⟩ | ⟨-, -, -, -, rfl, -⟩ | ⟨_, _, -, -, -, rfl, -⟩ |
    ⟨_, _, -, -, -, rfl, -⟩
  · rfl
  · rfl
  · rfl
  · rfl

theorem step_inputs {s t : State} (h : step s = .next t) : t.inputs = s.inputs.tail := by
  rcases step_cases h with ho | ⟨-, e, u, i, hf, -, hx⟩ | ⟨-, -, rfl⟩
  · rcases State.outside_cases ho with ⟨-, rfl⟩ | ⟨-, -, rfl⟩ | ⟨-, -, -, rfl⟩
    · rfl
    · rfl
    · rfl
  · exact (exec_inputs hx).trans (State.fetch_inputs hf)
  · rcases s.takeInput.otherStep_cases s.input with ⟨-, -, -, he⟩ | ⟨-, -, he⟩ | he <;> rw [he]
    · exact s.takeInput.completeDelay_inputs
    · rfl
    · rfl

/-! ### Legal positions (R27), and the order in which a cycle goes through them -/

theorem Position.legal_cycling_iff {p : Position} (hs : p.state = .cycling) :
    p.legal = true ↔ 1 ≤ p.t.toNat ∧ p.t.toNat ≤ 20 ∧
      ((p.w = true ∧ p.k ≠ 0) ∨ (p.w = false ∧ p.k.val ≤ 3)) := by
  have hmax : p.t.toNat ≤ Config.maxCycles ↔ p.t.toNat ≤ 20 := Iff.rfl
  have hk : p.k = 0 ↔ p.k.val = 0 := Fin.ext_iff
  have hk3 : (p.k = 0 ∨ 1 ≤ p.k.val ∧ p.k.val ≤ 3) ↔ p.k.val ≤ 3 := by omega
  cases hw : p.w
  · simp [Position.legal, hs, hw, hmax, hk3, and_assoc]
  · simp [Position.legal, hs, hw, hmax, and_assoc]

theorem Position.legal_of_waiting {p : Position} (hs : p.state = .cycling) (ht : 1 ≤ p.t.toNat)
    (ht20 : p.t.toNat ≤ 20) (hw : p.w = true) (hk : p.k ≠ 0) : p.legal = true :=
  (Position.legal_cycling_iff hs).mpr ⟨ht, ht20, .inl ⟨hw, hk⟩⟩

theorem Position.legal_of_not_waiting {p : Position} (hs : p.state = .cycling) (ht : 1 ≤ p.t.toNat)
    (ht20 : p.t.toNat ≤ 20) (hw : p.w = false) (hk : p.k.val ≤ 3) : p.legal = true :=
  (Position.legal_cycling_iff hs).mpr ⟨ht, ht20, .inr ⟨hw, hk⟩⟩

/-- `q` comes after `p` in a cycle: it ends the cycle, or is a legal position of it later in the order of R27. -/
def Position.Forward (p q : Position) : Prop :=
  q = .idle ∨ (q.state = .cycling ∧ q.legal = true ∧ p.rank < q.rank)

/-- `T` and `M` outweigh `K` and `W` in the order. -/
theorem Position.rank_bounds (p : Position) :
    10 * (p.m.val + 6 * p.t.toNat) ≤ p.rank ∧ p.rank < 10 * (p.m.val + 6 * p.t.toNat) + 10 := by
  have hk := p.k.isLt
  unfold Position.rank
  split <;> omega

/-- The advance goes forward (R146, R147): to the next motor, the next tick, or the end. -/
theorem Position.advance_forward {p : Position} (hs : p.state = .cycling) (hl : p.legal = true) :
    p.Forward p.advance := by
  obtain ⟨ht, ht20, -⟩ := (p.legal_cycling_iff hs).mp hl
  obtain ⟨-, hrank⟩ := p.rank_bounds
  obtain ⟨hnext, -⟩ := p.advance.rank_bounds
  by_cases hm : p.m.val < 5
  · have hm1 : (p.m + 1).val = p.m.val + 1 := Fin.val_add_one_of_lt' (by omega)
    rw [p.advance_motor hm] at hnext ⊢
    refine .inr ⟨hs, Position.legal_of_not_waiting hs ht ht20 rfl (Nat.zero_le 3), ?_⟩
    dsimp only at hnext
    omega
  have hm5 : p.m = 5 := Fin.ext (by omega)
  by_cases hlast : p.t.toNat < Config.maxCycles
  · have hlt : p.t.toNat < 20 := hlast
    have ht1 : (p.t + 1).toNat = p.t.toNat + 1 := by
      rw [BitVec.toNat_add]
      exact Nat.mod_eq_of_lt (by simp; omega)
    rw [p.advance_tick hm5 hlast] at hnext ⊢
    refine .inr ⟨hs, Position.legal_of_not_waiting hs (by rw [ht1]; omega) (by rw [ht1]; omega) rfl
      (Nat.zero_le 3), ?_⟩
    simp only [ht1, hm5, Fin.coe_ofNat_eq_mod] at hnext hrank
    omega
  · exact .inl (p.advance_exit hm5 (Nat.not_lt.mp hlast))

/-- One more phase write made is one more on `K` (R162): it does not wrap. -/
theorem val_k_add_one {k : Fin 5} (hk : k.val < 4) : (k + 1).val = k.val + 1 := Fin.val_add_one_of_lt' (by omega)

theorem k_add_one_ne_zero {k : Fin 5} (hk : k.val < 4) : k + 1 ≠ 0 :=
  fun h => absurd ((val_k_add_one hk).symm.trans (congrArg Fin.val h)) (Nat.succ_ne_zero _)

/-- Every move of the block goes forward through its cycle. -/
theorem State.BlockMove.forward {s : State} {b : Block} (hs : s.block.pos.state = .cycling)
    (hl : s.block.pos.legal = true) (h : s.BlockMove b) : s.block.pos.Forward b.pos := by
  have hno := State.not_accepts_of_cycling hs
  have hadvance := Position.advance_forward hs hl
  obtain ⟨ht, ht20, -⟩ := (Position.legal_cycling_iff hs).mp hl
  cases h with
  | wrb off val ha => exact absurd ha (hno _)
  | run ha => exact absurd ha (hno _)
  | fatal ha => exact absurd ha (hno _)
  | stop he hc => exact hadvance
  | hold he hc hn => exact hadvance
  | phase hp hdue =>
    obtain ⟨-, -, hk4, hw⟩ := (s.mayWritePhase_iff _).mp hp
    have hk1 := val_k_add_one hk4
    have hk0 := k_add_one_ne_zero hk4
    rw [State.writePhase_pos]
    refine .inr ⟨hs, Position.legal_of_waiting hs ht ht20 rfl hk0, ?_⟩
    simp only [Position.rank, hk1, hw, if_true, Bool.false_eq_true, if_false]
    omega
  | delay _ hw hd =>
    rw [State.completeDelay_block]
    dsimp only
    split
    · exact hadvance
    · rename_i hk
      have hk4 : s.block.pos.k.val ≠ 4 := fun h => hk (Fin.ext h)
      have hk3 : s.block.pos.k.val ≤ 3 := by omega
      refine .inr ⟨hs, Position.legal_of_not_waiting hs ht ht20 rfl hk3, ?_⟩
      simp [Position.rank, hw]

/-- With a requested delay completed, a step of a cycle is a move of the block: it never waits. -/
theorem step_of_cycling_move {s : State} (ho : s.takeInput.outside s.input = none)
    (hs : s.block.pos.state = .cycling) (hl : s.block.pos.legal = true)
    (hd : s.block.pos.w = true → s.input.delayDone = true) : ∃ t, step s = .next t ∧ s.BlockMove t.block := by
  obtain ⟨t, ht⟩ := step_of_cycling_next hs
  refine ⟨t, ht, ?_⟩
  cases hw : s.block.pos.w with
  | true =>
    rw [step_of_delay ho hs hw (hd hw)] at ht
    cases ht
    have hb : s.takeInput.completeDelay.block = s.completeDelay.block := by
      rw [State.completeDelay_block, State.completeDelay_block, State.takeInput_block]
    exact hb ▸ .delay hs hw (hd hw)
  | false =>
    by_cases hk : s.block.pos.k = 0
    · rw [step_of_evaluation ho hs hk hw] at ht
      exact State.blockMove_of_selection ((s.evaluating_iff _).mpr ⟨hs, rfl, hk, hw⟩) ht
    · obtain ⟨-, -, hkw⟩ := (Position.legal_cycling_iff hs).mp hl
      have hk4 : s.block.pos.k.val < 4 := by
        rcases hkw with ⟨hw', -⟩ | ⟨-, hk3⟩
        · exact absurd (hw.symm.trans hw') (by decide)
        · omega
      rw [step_of_phase ho hs hk hk4 hw] at ht
      exact State.blockMove_of_phase ((s.mayWritePhase_iff _).mpr ⟨hs, rfl, hk4, hw⟩) hk ht

theorem step_of_cycling_forward {s : State} (ho : s.takeInput.outside s.input = none)
    (hs : s.block.pos.state = .cycling) (hl : s.block.pos.legal = true)
    (hd : s.block.pos.w = true → s.input.delayDone = true) :
    ∃ t, step s = .next t ∧ s.block.pos.Forward t.block.pos := by
  obtain ⟨t, ht, hm⟩ := step_of_cycling_move ho hs hl hd
  exact ⟨t, ht, hm.forward hs hl⟩

/-- Settles O39: the step is a move of the block, which goes forward from a legal position. -/
theorem everyStepOfACycleGoesForward : Obligations.EveryStepOfACycleGoesForward := by
  intro s hinv hr hrs hg hs hd
  obtain ⟨t, ht, hf⟩ := step_of_cycling_forward (State.outside_eq_none _ hr hrs hg) hs hinv.block.pos hd
  exact ⟨t, ht, hf.imp_right fun ⟨hst, _, hlt⟩ => ⟨hst, hlt⟩⟩

/-! ### Runs under a quiet outside -/

theorem core_run_succ {s u : State} (h : step s = .next u) (n : Nat) :
    Sys2Proof.core.run (n + 1) s = Sys2Proof.core.run n u := by
  simp only [Host.Core.run, core, h]

theorem core_run_add {a b : Nat} {s u : State} (h : Sys2Proof.core.run a s = .next u) :
    Sys2Proof.core.run (a + b) s = Sys2Proof.core.run b u := by
  induction a generalizing s with
  | zero =>
    rw [Nat.zero_add]
    cases h
    rfl
  | succ a ih =>
    rw [Nat.succ_add]
    cases hs : step s with
    | next v =>
      rw [core_run_succ hs] at h ⊢
      exact ih h
    | fault r => exact nomatch r
    | refused r =>
      simp only [Host.Core.run, core, hs] at h
      cases h

theorem State.input_of_quiet {s : State} (hq : s.inputs = []) : s.input = .quiet := by
  rw [State.input, hq]
  rfl

theorem State.takeInput_of_quiet {s : State} (hq : s.inputs = []) : s.takeInput = s := by
  rw [State.takeInput, hq, List.tail_nil, ← hq]
  rfl

theorem State.outside_of_quiet {s : State} (hq : s.inputs = []) : s.takeInput.outside s.input = none := by
  rw [State.input_of_quiet hq]
  rfl

theorem State.delayDone_of_quiet {s : State} (hq : s.inputs = []) : s.input.delayDone = true := by
  rw [State.input_of_quiet hq]
  rfl

/-- The last position of a cycle is `(20, 5, 4, 1)`. -/
theorem Position.rank_lt {p : Position} (hs : p.state = .cycling) (hl : p.legal = true) : p.rank < 1260 := by
  obtain ⟨-, ht20, -⟩ := (p.legal_cycling_iff hs).mp hl
  obtain ⟨-, hrank⟩ := p.rank_bounds
  omega

/-- The first position of a cycle is `(1, 0, 0, 0)`. -/
theorem Position.le_rank {p : Position} (hs : p.state = .cycling) (hl : p.legal = true) : 60 ≤ p.rank := by
  obtain ⟨ht, -, -⟩ := (p.legal_cycling_iff hs).mp hl
  obtain ⟨hrank, -⟩ := p.rank_bounds
  omega

/-- A cycle is over after as many steps as its position is away from the end of the order. -/
theorem run_of_cycling_ends (n : Nat) {s : State} (hq : s.inputs = []) (hs : s.block.pos.state = .cycling)
    (hl : s.block.pos.legal = true) (hn : 1260 ≤ s.block.pos.rank + n) :
    ∃ j t, j ≤ n ∧ Sys2Proof.core.run j s = .next t ∧ t.block.pos = .idle := by
  induction n generalizing s with
  | zero => exact absurd (Position.rank_lt hs hl) (by omega)
  | succ n ih =>
    have hd : s.input.delayDone = true := State.delayDone_of_quiet hq
    obtain ⟨u, hu, hf⟩ := step_of_cycling_forward (State.outside_of_quiet hq) hs hl fun _ => hd
    rcases hf with hidle | ⟨hs', hl', hlt⟩
    · exact ⟨1, u, by omega, core_run_succ hu 0, hidle⟩
    · have hq' : u.inputs = [] := by rw [step_inputs hu, hq, List.tail_nil]
      obtain ⟨j, t, hj, hrun, ht⟩ := ih hq' hs' hl' (by omega)
      exact ⟨j + 1, t, by omega, (core_run_succ hu j).trans hrun, ht⟩

/-- Settles O40: the positions of a cycle have ranks from 60 up and below 1260. -/
theorem everyCycleEnds : Obligations.EveryCycleEnds := by
  intro s hinv hq hs
  have hl := hinv.block.pos
  have hfirst := Position.le_rank hs hl
  obtain ⟨j, t, hj, hrun, ht⟩ := run_of_cycling_ends 1200 hq hs hl (by omega)
  exact ⟨j, t, hj, hrun, ht⟩

end Sys2Proof.Machine
end

section
/-! The scheduler statements (spec/42_scheduler.md), the whole cycle: a step of a motor runs to its end, an evaluation
runs to the next position, and the evaluations follow one another in the nested order of ticks and motors (R142). -/

namespace Sys2Proof.Machine

/-! ### A step of a motor, from any of its phase writes to its end (R163, R164) -/

/-- Whether the step in progress goes forward: the sign of the cadence (R163, R164). -/
def State.goesForward (s : State) : Bool := decide (0 < s.cadenceOf s.block.pos.m)

theorem State.nextPhase_eq (s : State) :
    s.nextPhase = stepPhase s.goesForward (Fin.ofNat 4 s.block.pos.k.val) := rfl

/-- The next phase write, and the delay that follows it. -/
def State.phaseAndDelay (s : State) : State := (s.writePhase s.block.pos.m s.nextPhase).completeDelay

/-- What is left of the step in progress: its remaining events, its last pattern, and the advance. -/
def State.finishStep (s : State) : State :=
  { s with
    block.coil := s.block.coil.set s.block.pos.m.val (onehot (stepPhase s.goesForward 3)) s.block.pos.m.isLt
    block.pos := s.block.pos.advance
    trace := s.trace ++ (stepTrace s.block.pos.m s.goesForward).drop (2 * s.block.pos.k.val) }

/-- A step with the phases from `k` on still to be written begins with the write of phase `k` and its delay. -/
theorem stepTrace_drop (m : Motor) (forward : Bool) {k : Nat} (hk : k < 4) :
    (stepTrace m forward).drop (2 * k) =
      .write m (onehot (stepPhase forward (Fin.ofNat 4 k))) :: .delay :: (stepTrace m forward).drop (2 * (k + 1)) := by
  match k, hk with
  | 0, _ | 1, _ | 2, _ | 3, _ => cases forward <;> rfl

theorem stepTrace_drop_all (m : Motor) (forward : Bool) : (stepTrace m forward).drop 8 = [] := by
  cases forward <;> rfl

/-- `advance` looks at `STATE`, `T` and `M` only (R146). -/
theorem Position.advance_of_k_w (p : Position) (k : Fin 5) (w : Bool) :
    { p with k := k, w := w }.advance = p.advance := rfl

/-- What one phase write and its delay leave (R161, R162). -/
theorem State.phaseAndDelay_eq {s : State} (hk : s.block.pos.k.val < 4) :
    s.phaseAndDelay = { s with
      block.coil := s.block.coil.set s.block.pos.m.val (onehot s.nextPhase) s.block.pos.m.isLt
      block.pos := if s.block.pos.k.val = 3 then s.block.pos.advance
        else { s.block.pos with k := s.block.pos.k + 1, w := false }
      trace := s.trace ++ [.write s.block.pos.m (onehot s.nextPhase), .delay] } := by
  have hk1 := val_k_add_one (k := s.block.pos.k) (by omega)
  have hlast : s.block.pos.k + 1 = 4 ↔ s.block.pos.k.val = 3 := by
    rw [Fin.ext_iff, hk1]
    exact Nat.succ_inj
  rw [State.phaseAndDelay, State.completeDelay_spec, State.writePhase_pos, Position.advance_of_k_w, List.append_cons]
  simp only [hlast]
  rfl

/-- The fourth phase write and its delay end the step. -/
theorem State.phaseAndDelay_of_last {s : State} (hk : s.block.pos.k.val = 3) : s.phaseAndDelay = s.finishStep := by
  rw [State.phaseAndDelay_eq (by omega), State.finishStep, if_pos hk, stepTrace_drop _ _ (by omega),
    ← State.nextPhase_eq, hk, stepTrace_drop_all, State.nextPhase_eq, hk]
  rfl

/-- An earlier phase write and its delay leave the rest of the step. -/
theorem State.phaseAndDelay_of_earlier {s : State} (hk : s.block.pos.k.val < 3) :
    s.phaseAndDelay.finishStep = s.finishStep := by
  have hk1 := val_k_add_one (k := s.block.pos.k) (by omega)
  rw [State.phaseAndDelay_eq (by omega), if_neg (by omega), State.finishStep, State.finishStep,
    stepTrace_drop _ _ (k := s.block.pos.k.val) (by omega), ← State.nextPhase_eq]
  simp only [Vector.set_set, List.append_assoc, List.cons_append, List.nil_append, hk1]
  rfl

/-- The cadence of the position's motor selects a step on the position's tick (R143). -/
def State.stepIsDue (s : State) : Prop :=
  s.cadenceOf s.block.pos.m ≠ 0 ∧ s.block.pos.t.toNat % period s.block.cad[s.block.pos.m] = 0

/-- Under a quiet outside, a phase write that is due is one step (R162 to R164). -/
theorem step_of_quiet_phase {s : State} (hq : s.inputs = []) (hp : s.mayWritePhase s.block.pos.m = true)
    (hdue : s.block.pos.k = 0 → s.stepIsDue) :
    step s = .next (s.writePhase s.block.pos.m s.nextPhase) := by
  have ho := State.outside_of_quiet hq
  obtain ⟨hs, -, hk4, hw⟩ := (s.mayWritePhase_iff _).mp hp
  by_cases hk : s.block.pos.k = 0
  · obtain ⟨hc, ht⟩ := hdue hk
    have he := (s.evaluating_iff _).mpr ⟨hs, rfl, hk, hw⟩
    rw [step_of_evaluation ho hs hk hw, State.takeInput_of_quiet hq, State.nextPhase_at_evaluation hk]
    rcases lt_or_gt_of_ne hc with hneg | hpos
    · rw [decodeCad_stepr hneg ht, exec_stepr_evaluating he, decide_eq_false hneg.not_gt]
    · rw [decodeCad_stepf hpos ht, exec_stepf_evaluating he, decide_eq_true hpos]
  · rw [step_of_phase ho hs hk hk4 hw, State.takeInput_of_quiet hq, exec_phase_mayWritePhase hp]

theorem run_phaseAndDelay {s : State} (hq : s.inputs = []) (hp : s.mayWritePhase s.block.pos.m = true)
    (hdue : s.block.pos.k = 0 → s.stepIsDue) (n : Nat) :
    Sys2Proof.core.run (n + 2) s = Sys2Proof.core.run n s.phaseAndDelay := by
  obtain ⟨hs, -⟩ := (s.mayWritePhase_iff _).mp hp
  have hq' : (s.writePhase s.block.pos.m s.nextPhase).inputs = [] := hq
  have hd : (s.writePhase s.block.pos.m s.nextPhase).input.delayDone = true := State.delayDone_of_quiet hq'
  have hdelay := step_of_delay (State.outside_of_quiet hq') hs rfl hd
  rw [State.takeInput_of_quiet hq'] at hdelay
  rw [core_run_succ (step_of_quiet_phase hq hp hdue), core_run_succ hdelay, State.phaseAndDelay]

/-- From the next phase write of a step, two model steps for each phase that is left end it. -/
theorem run_finishStep (n : Nat) {s : State} (hq : s.inputs = []) (hp : s.mayWritePhase s.block.pos.m = true)
    (hdue : s.block.pos.k = 0 → s.stepIsDue) (hn : s.block.pos.k.val + n = 3) :
    Sys2Proof.core.run (2 * n + 2) s = .next s.finishStep := by
  induction n generalizing s with
  | zero =>
    rw [run_phaseAndDelay hq hp hdue, State.phaseAndDelay_of_last hn]
    rfl
  | succ n ih =>
    have hk3 : s.block.pos.k.val < 3 := by omega
    have hk1 := val_k_add_one (k := s.block.pos.k) (by omega)
    have hk0 := k_add_one_ne_zero (k := s.block.pos.k) (by omega)
    have hand := State.phaseAndDelay_eq (s := s) (by omega)
    rw [if_neg hk3.ne] at hand
    have hpos : s.phaseAndDelay.block.pos = { s.block.pos with k := s.block.pos.k + 1, w := false } := by rw [hand]
    have hk' : s.phaseAndDelay.block.pos.k = s.block.pos.k + 1 := by rw [hpos]
    obtain ⟨hs, -⟩ := (s.mayWritePhase_iff _).mp hp
    rw [Nat.mul_succ, run_phaseAndDelay hq hp hdue, ih, State.phaseAndDelay_of_earlier hk3]
    · rw [hand]
      exact hq
    · rw [State.mayWritePhase_iff, hpos]
      exact ⟨hs, rfl, hk1.trans_lt (by omega), rfl⟩
    · exact fun h => absurd (hk'.symm.trans h) hk0
    · rw [hk', hk1]
      omega

/-! ### The evaluation of a motor (R143 to R145, R163 to R165) -/

/-- The evaluation of a motor writes its coils (R143): a stopped motor's on every tick, another's on its due ticks. -/
def writesOn (c : Int) (t : Nat) : Bool := decide (c = 0 ∨ t % c.natAbs = 0)

/-- The pattern an evaluation that writes the coils leaves on them: off, or the last phase of the direction. -/
def restPattern (c : Int) : Pattern := if c = 0 then 0 else onehot (stepPhase (decide (0 < c)) 3)

theorem restPattern_eq (c : Int) :
    restPattern c = if c = 0 then 0b0000 else if 0 < c then 0b1000 else 0b0001 := by
  unfold restPattern
  split_ifs with hzero hpos
  · rfl
  · rw [decide_eq_true hpos]
    rfl
  · rw [decide_eq_false hpos]
    rfl

/-- The state after the evaluation of the position's motor and, where it begins a step, the whole of that step. -/
def State.evaluated (s : State) : State :=
  { s with
    block.coil := s.block.coil.set s.block.pos.m.val
      (if writesOn (s.cadenceOf s.block.pos.m) s.block.pos.t.toNat then restPattern (s.cadenceOf s.block.pos.m)
        else s.block.coil[s.block.pos.m]) s.block.pos.m.isLt
    block.pos := s.block.pos.advance
    trace := s.trace ++ evaluationTrace (s.cadenceOf s.block.pos.m) s.block.pos.t.toNat s.block.pos.m }

section
variable {s : State}

theorem State.evaluated_of_stop (hc : s.cadenceOf s.block.pos.m = 0) : s.evaluated = s.writeStop s.block.pos.m := by
  simp only [State.evaluated, hc, writesOn, restPattern, evaluationTrace, true_or, decide_true, if_true]
  rfl

theorem State.evaluated_of_hold (hc : s.cadenceOf s.block.pos.m ≠ 0)
    (ht : s.block.pos.t.toNat % (s.cadenceOf s.block.pos.m).natAbs ≠ 0) : s.evaluated = s.advance := by
  simp only [State.evaluated, writesOn, evaluationTrace, hc, ht, or_self, decide_false, if_false, List.append_nil,
    Bool.false_eq_true]
  rw [Fin.getElem_fin, Vector.set_getElem_self]
  rfl

theorem State.evaluated_of_step (hk : s.block.pos.k = 0) (hc : s.cadenceOf s.block.pos.m ≠ 0)
    (ht : s.block.pos.t.toNat % (s.cadenceOf s.block.pos.m).natAbs = 0) : s.evaluated = s.finishStep := by
  simp only [State.evaluated, State.finishStep, writesOn, restPattern, evaluationTrace, hc, ht, hk, or_true,
    decide_true, if_true, if_false]
  rfl

end

/-- An evaluation, with the step it begins, under a quiet outside. -/
theorem run_evaluated {s : State} (hq : s.inputs = []) (he : s.evaluating s.block.pos.m = true) :
    Sys2Proof.core.run (evaluationSteps (s.cadenceOf s.block.pos.m) s.block.pos.t.toNat) s = .next s.evaluated := by
  obtain ⟨hs, -, hk, hw⟩ := (s.evaluating_iff _).mp he
  have hstep := step_of_evaluation (State.outside_of_quiet hq) hs hk hw
  rw [State.takeInput_of_quiet hq] at hstep
  by_cases hc : s.cadenceOf s.block.pos.m = 0
  · have hsteps : evaluationSteps (s.cadenceOf s.block.pos.m) s.block.pos.t.toNat = 1 := if_neg fun h => h.1 hc
    rw [(sext8_eq_zero_iff _).mp hc, decodeCad_zero, exec_stop_evaluating he] at hstep
    rw [hsteps, core_run_succ hstep, State.evaluated_of_stop hc]
    rfl
  by_cases ht : s.block.pos.t.toNat % (s.cadenceOf s.block.pos.m).natAbs = 0
  · have hsteps : evaluationSteps (s.cadenceOf s.block.pos.m) s.block.pos.t.toNat = 8 := if_pos ⟨hc, ht⟩
    rw [hsteps, State.evaluated_of_step hk hc ht]
    exact run_finishStep 3 hq (State.mayWritePhase_of_evaluating he) (fun _ => ⟨hc, ht⟩) (by rw [hk]; rfl)
  · have hsteps : evaluationSteps (s.cadenceOf s.block.pos.m) s.block.pos.t.toNat = 1 := if_neg fun h => ht h.2
    rw [decodeCad_hold hc ht, exec_hold_evaluating he] at hstep
    rw [hsteps, core_run_succ hstep, State.evaluated_of_hold hc ht]
    rfl

/-! ### The nested loop over ticks and motors (R142, R146) -/

/-- The evaluations of a cycle in order: on each tick, each motor. -/
def visits : List (Nat × Motor) := ticks.flatMap fun t => motors.map (t, ·)

/-- From `p` the evaluations of `vs` follow one another, each the advance of the one before it, and then Idle. -/
def Position.Follows (p : Position) : List (Nat × Motor) → Prop
  | [] => p = .idle
  | v :: vs => p = ⟨.cycling, BitVec.ofNat 8 v.1, v.2, 0, false⟩ ∧ v.1 < 256 ∧ p.advance.Follows vs

/-- The motors of one tick, and what follows the last of them (R146). -/
theorem Position.follows_motors {t : Nat} {vs : List (Nat × Motor)} (ht : t < 256)
    (h : (⟨.cycling, BitVec.ofNat 8 t, 5, 0, false⟩ : Position).advance.Follows vs) :
    (⟨.cycling, BitVec.ofNat 8 t, 0, 0, false⟩ : Position).Follows (motors.map (t, ·) ++ vs) :=
  ⟨rfl, ht, rfl, ht, rfl, ht, rfl, ht, rfl, ht, rfl, ht, h⟩

/-- The last `n` ticks of a cycle. -/
theorem Position.follows_ticks (n : Nat) {t : Nat} (hn : 0 < n) (ht : t + n = 21) :
    (⟨.cycling, BitVec.ofNat 8 t, 0, 0, false⟩ : Position).Follows
      ((List.range' t n).flatMap fun t => motors.map (t, ·)) := by
  have htnat : (BitVec.ofNat 8 t).toNat = t := Nat.mod_eq_of_lt (by omega)
  induction n generalizing t with
  | zero => exact absurd hn (Nat.lt_irrefl 0)
  | succ n ih =>
    rw [List.range'_succ, List.flatMap_cons]
    refine Position.follows_motors (by omega) ?_
    by_cases hlast : n = 0
    · rw [hlast, Position.advance_exit _ rfl (by dsimp only [Config.maxCycles]; omega)]
      rfl
    · have hsucc : BitVec.ofNat 8 t + 1 = BitVec.ofNat 8 (t + 1) := (BitVec.ofNat_add t 1).symm
      rw [Position.advance_tick _ rfl (by dsimp only [Config.maxCycles]; omega)]
      dsimp only
      rw [hsucc]
      exact ih (by omega) (by omega) (Nat.mod_eq_of_lt (by omega))

/-- A cycle goes through every motor on every tick, ticks outermost, and ends in Idle (R142, R147). -/
theorem Position.cycleStart_follows : Position.cycleStart.Follows visits := Position.follows_ticks 20 (by decide) rfl

/-- What the evaluations of `vs` make of a state, from a position they follow. -/
structure State.Visited (s : State) (vs : List (Nat × Motor)) (t : State) : Prop where
  pos : t.block.pos = .idle
  trace : t.trace = s.trace ++ vs.flatMap fun v => evaluationTrace (sext8 s.block.cad[v.2]) v.1 v.2
  coil : ∀ m : Motor, t.block.coil[m] =
    if ∃ v ∈ vs, v.2 = m ∧ writesOn (sext8 s.block.cad[m]) v.1 then restPattern (sext8 s.block.cad[m])
    else s.block.coil[m]
  frame : t = { s with block.coil := t.block.coil, block.pos := t.block.pos, trace := t.trace }

/-- What an evaluation leaves on the coils of each motor. -/
theorem State.evaluated_coil (s : State) (m : Motor) :
    s.evaluated.block.coil[m] =
      if s.block.pos.m = m ∧ writesOn (sext8 s.block.cad[m]) s.block.pos.t.toNat
      then restPattern (sext8 s.block.cad[m]) else s.block.coil[m] := by
  have hset := s.setCoil_getElem s.block.pos.m m
    (if writesOn (s.cadenceOf s.block.pos.m) s.block.pos.t.toNat then restPattern (s.cadenceOf s.block.pos.m)
        else s.block.coil[s.block.pos.m])
  refine hset.trans ?_
  by_cases hm : m = s.block.pos.m
  · subst hm
    simp only [true_and, if_true]
    rfl
  · simp [hm, Ne.symm hm]

theorem State.evaluated_trace (s : State) : s.evaluated.trace =
    s.trace ++ evaluationTrace (s.cadenceOf s.block.pos.m) s.block.pos.t.toNat s.block.pos.m := rfl

/-- One evaluation before those of `vs`. -/
theorem State.Visited.cons {s t : State} {v : Nat × Motor} {vs : List (Nat × Motor)}
    (ht : s.block.pos.t.toNat = v.1) (hm : s.block.pos.m = v.2) (h : s.evaluated.Visited vs t) :
    s.Visited (v :: vs) t where
  pos := h.pos
  trace := by
    rw [h.trace, List.flatMap_cons, ← List.append_assoc, State.evaluated_trace, ht, hm]
    rfl
  coil m := by
    have hcad : s.evaluated.block.cad = s.block.cad := rfl
    rw [h.coil, s.evaluated_coil, hcad, ht, hm]
    simp only [List.exists_mem_cons_iff]
    by_cases hlater : ∃ v ∈ vs, v.2 = m ∧ writesOn (sext8 s.block.cad[m]) v.1
    · rw [if_pos hlater, if_pos (.inr hlater)]
    · simp only [hlater, if_false, or_false]
  frame := h.frame

/-- Under a quiet outside a run carries out the evaluations that follow from its position. -/
theorem run_visited (vs : List (Nat × Motor)) {s : State} (hq : s.inputs = []) (hf : s.block.pos.Follows vs) :
    ∃ t, Sys2Proof.core.run (vs.map fun v => evaluationSteps (sext8 s.block.cad[v.2]) v.1).sum s = .next t ∧
      s.Visited vs t := by
  induction vs generalizing s with
  | nil => exact ⟨s, rfl, hf, (List.append_nil _).symm, fun m => by simp, rfl⟩
  | cons v vs ih =>
    obtain ⟨hpos, hv, hnext⟩ := hf
    have ht : s.block.pos.t.toNat = v.1 := by
      rw [hpos]
      exact Nat.mod_eq_of_lt hv
    have hm : s.block.pos.m = v.2 := by rw [hpos]
    have he : s.evaluating s.block.pos.m = true := by
      rw [State.evaluating_iff, hpos]
      exact ⟨rfl, rfl, rfl, rfl⟩
    have hfirst := run_evaluated hq he
    rw [ht, hm] at hfirst
    obtain ⟨t, hrest, hvis⟩ := ih (s := s.evaluated) hq hnext
    refine ⟨t, ?_, .cons ht hm hvis⟩
    rw [List.map_cons, List.sum_cons]
    exact (core_run_add hfirst).trans hrest

/-! ### The whole cycle -/

theorem cycleTrace_eq_visits (cad : Vector Byte 6) :
    cycleTrace cad = visits.flatMap fun v => evaluationTrace (sext8 cad[v.2]) v.1 v.2 := by
  simp only [cycleTrace, visits, List.flatMap_assoc, List.flatMap_map]

theorem cycleSteps_eq_visits (cad : Vector Byte 6) :
    cycleSteps cad = (visits.map fun v => evaluationSteps (sext8 cad[v.2]) v.1).sum := by
  rw [visits, List.map_flatMap, List.flatMap, List.sum_flatten]
  simp only [cycleSteps, List.map_map, Function.comp_def]

theorem mem_visits_iff (t : Nat) (m : Motor) : (t, m) ∈ visits ↔ 1 ≤ t ∧ t ≤ 20 := by
  have hmotor : ∀ m : Motor, m ∈ motors := by decide
  have hticks : ticks = List.range' 1 20 := rfl
  simp [visits, hticks, hmotor, Nat.lt_succ_iff]

/-- In a cycle a motor's coils are written, but for periods of more than 20 ticks. -/
theorem exists_visit_writesOn_iff (c : Int) (m : Motor) :
    (∃ v ∈ visits, v.2 = m ∧ writesOn c v.1) ↔ c.natAbs ≤ 20 := by
  simp only [Prod.exists, mem_visits_iff, writesOn, decide_eq_true_eq]
  constructor
  · rintro ⟨t, _, ⟨ht, ht20⟩, -, rfl | hdue⟩
    · decide
    · exact (Nat.le_of_dvd ht (Nat.dvd_of_mod_eq_zero hdue)).trans ht20
  · intro hc
    rcases Nat.eq_zero_or_pos c.natAbs with hzero | hpos
    · exact ⟨1, m, by decide, rfl, .inl (Int.natAbs_eq_zero.mp hzero)⟩
    · exact ⟨c.natAbs, m, ⟨hpos, hc⟩, rfl, .inr (Nat.mod_self _)⟩

/-- From its start a cycle under a quiet outside makes every evaluation of R142. -/
theorem run_cycle {s : State} (hq : s.inputs = []) (hp : s.block.pos = .cycleStart) :
    ∃ t, Sys2Proof.core.run (cycleSteps s.block.cad) s = .next t ∧ s.Visited visits t := by
  rw [cycleSteps_eq_visits]
  exact run_visited visits hq (hp ▸ Position.cycleStart_follows)

/-- Settles O37: the run makes the evaluations of every visit; a coil register keeps its pattern when no visit writes
it, and otherwise ends with the one pattern that every write of its motor's evaluations leaves. -/
theorem cycleLeavesTheTraceOfTheNestedLoop : Obligations.CycleLeavesTheTraceOfTheNestedLoop := by
  intro s hq hp
  obtain ⟨t, hrun, hpos, htrace, hcoil, hframe⟩ := run_cycle hq hp
  refine ⟨t, hrun, htrace.trans (by rw [cycleTrace_eq_visits]), hpos, fun m => ?_, ?_⟩
  · simp only [hcoil, exists_visit_writesOn_iff, restPattern_eq, sext8_eq_toInt]
    by_cases hzero : s.block.cad[m].toInt = 0
    · simp only [hzero, Int.natAbs_zero, Nat.zero_le, if_true]
    by_cases hlong : 20 < s.block.cad[m].toInt.natAbs
    · simp only [hzero, hlong, if_true, if_false, Nat.not_le.mpr hlong]
    · simp only [hzero, hlong, if_true, if_false, Nat.not_lt.mp hlong]
  · rw [hframe]
    exact ⟨rfl, rfl, rfl, rfl, rfl, hq⟩

/-! ### What the events of a cycle add up to (R148, R166, R244) -/

theorem sum_motors (f : Motor → Nat) : (motors.map f).sum = ∑ m : Motor, f m := (Fin.sum_univ_def f).symm

theorem sum_ticks (f : Nat → Nat) : (ticks.map f).sum = ∑ i ∈ Finset.range 20, f (i + 1) := rfl

/-- The due ticks of a cycle, each counted `n` times: `MAX_CYCLES / abs(c)` of them (R148). -/
theorem sum_due_ticks (p n : Nat) : (ticks.map fun t => if t % p = 0 then n else 0).sum = n * (20 / p) := by
  rw [sum_ticks, ← Finset.sum_filter, Finset.sum_const, smul_eq_mul, mul_comm]
  simp only [← Nat.dvd_iff_mod_eq_zero, Nat.card_multiples]

/-- The coil writes of one evaluation: one of a stopped motor, four of a step, all of the motor itself. -/
theorem countP_isWriteOf_evaluationTrace (c : Int) (t : Nat) (m m' : Motor) :
    (evaluationTrace c t m').countP (Event.isWriteOf m) =
      if m' = m then (if c = 0 then 1 else if t % c.natAbs = 0 then 4 else 0) else 0 := by
  unfold evaluationTrace stepTrace
  by_cases hm : m' = m
  · split_ifs <;> simp [Event.isWriteOf, hm]
  · split_ifs <;> simp [Event.isWriteOf, hm]

/-- The delays of one evaluation: four of a step. -/
theorem count_delay_evaluationTrace (c : Int) (t : Nat) (m : Motor) :
    (evaluationTrace c t m).count .delay = if c = 0 then 0 else if t % c.natAbs = 0 then 4 else 0 := by
  unfold evaluationTrace stepTrace
  split_ifs <;> simp

theorem countP_isWriteOf_cycleTrace (cad : Vector Byte 6) (m : Motor) :
    (cycleTrace cad).countP (Event.isWriteOf m) =
      if sext8 cad[m] = 0 then 20 else 4 * (20 / (sext8 cad[m]).natAbs) := by
  have htick (t : Nat) : ((motors.flatMap fun m' => evaluationTrace (sext8 cad[m']) t m').countP (Event.isWriteOf m)) =
      if sext8 cad[m] = 0 then 1 else if t % (sext8 cad[m]).natAbs = 0 then 4 else 0 := by
    rw [List.countP_flatMap, sum_motors]
    simp only [Function.comp_def, countP_isWriteOf_evaluationTrace, Finset.sum_ite_eq', Finset.mem_univ, if_true]
  rw [cycleTrace, List.countP_flatMap]
  simp only [Function.comp_def, htick]
  split_ifs
  · rfl
  · exact sum_due_ticks _ 4

theorem count_delay_cycleTrace (cad : Vector Byte 6) :
    (cycleTrace cad).count .delay = 4 * (motors.map fun m => stepsPerCycle (sext8 cad[m])).sum := by
  have hmotor (c : Int) :
      (ticks.map fun t => if c = 0 then 0 else if t % c.natAbs = 0 then 4 else 0).sum = 4 * stepsPerCycle c := by
    unfold stepsPerCycle
    split_ifs
    · rfl
    · exact sum_due_ticks _ 4
  simp only [cycleTrace, List.count_flatMap, Function.comp_def, count_delay_evaluationTrace, sum_motors, sum_ticks]
  rw [Finset.sum_comm, Finset.mul_sum]
  exact Finset.sum_congr rfl fun m _ => hmotor _

/-- Settles O38: the events are those of the nested loop, counted evaluation by evaluation. -/
theorem cycleCountsStepsAndDelays : Obligations.CycleCountsStepsAndDelays := by
  intro s hq hp
  obtain ⟨t, hrun, hpos, htrace, -, -⟩ := run_cycle hq hp
  rw [← cycleTrace_eq_visits] at htrace
  have hwrites (m : Motor) := countP_isWriteOf_cycleTrace s.block.cad m
  have hdelays := count_delay_cycleTrace s.block.cad
  simp only [sext8_eq_toInt] at hwrites hdelays
  refine ⟨_, t, cycleTrace s.block.cad, hrun, by rw [hpos]; rfl, htrace, hwrites, hdelays, ?_⟩
  rw [minDurationMs, hdelays, mul_left_comm, mul_assoc]

end Sys2Proof.Machine
end

section
/-! The sequencer statements (spec/43_sequencer.md): what a step does inside a motor's step and during its delays, what
each coil write leaves, and when a coil register changes. -/

namespace Sys2Proof.Machine

/-! ### A step of the sequencer (R161, R163, R164) -/

theorem State.cadenceOf_eq_toInt (s : State) (m : Motor) : s.cadenceOf m = s.block.cad[m].toInt := sext8_eq_toInt _

/-- The next phase is the one that counts `K` up in forward and down in reverse. -/
theorem State.nextPhase_eq_of_val {s : State} {p : Phase} (hk : s.block.pos.k.val ≤ 3)
    (hforward : 0 < s.cadenceOf s.block.pos.m → p.val = s.block.pos.k.val)
    (hreverse : ¬ 0 < s.cadenceOf s.block.pos.m → p.val = 3 - s.block.pos.k.val) : s.nextPhase = p := by
  have hmod : s.block.pos.k.val % 4 = s.block.pos.k.val := Nat.mod_eq_of_lt (by omega)
  apply Fin.ext
  unfold State.nextPhase stepPhase
  by_cases hpos : 0 < s.cadenceOf s.block.pos.m
  · rw [decide_eq_true hpos, if_pos rfl, hforward hpos]
    exact hmod
  · rw [decide_eq_false hpos, if_neg Bool.false_ne_true, hreverse hpos, Fin.val_rev, Fin.val_ofNat, hmod]
    omega

/-- Settles O10: inside a step the phase write fetched is the next one, which the sign of the cadence picks. -/
theorem stepContinuesWithTheNextPhase : Obligations.StepContinuesWithTheNextPhase := by
  intro s p hr hrs hg hs hw hk1 hk3 hpos hneg hzero
  rw [← State.cadenceOf_eq_toInt] at hpos hneg hzero
  have hk : s.block.pos.k ≠ 0 := fun h => absurd hk1 (by rw [h]; decide)
  have hphase : s.nextPhase = p :=
    State.nextPhase_eq_of_val hk3 hpos fun h => (Int.not_lt.mp h).lt_or_eq.elim hneg hzero
  rw [step_of_phase (State.outside_eq_none _ hr hrs hg) hs hk (by omega) hw, hphase]
  rfl

/-- Settles O11: the completion is the whole step, and it writes the position only. -/
theorem delayCompletionEndsTheWait : Obligations.DelayCompletionEndsTheWait := by
  intro s hr hrs hg hd hs hw
  have hk : s.block.pos.k.val = 4 ↔ s.block.pos.k = 4 := (Fin.ext_iff (b := 4)).symm
  rw [step_of_delay (State.outside_eq_none _ hr hrs hg) hs hw hd, State.completeDelay_spec]
  simp only [hk]
  rfl

/-- Settles O12: a delay in flight leaves nothing to fetch, and without its completion nothing else happens. -/
theorem nothingMovesWhileTheDelayLasts : Obligations.NothingMovesWhileTheDelayLasts := by
  intro s hr hrs hg hd hs hw
  have hs' : s.takeInput.block.pos.state = .cycling := hs
  have hnot : (s.takeInput.block.pos.w && s.input.delayDone) = false := by rw [hd, Bool.and_false]
  rw [step_of_nothing_fetched (State.outside_eq_none _ hr hrs hg) (State.fetch_cycling_none _ hs' (.inl hw)),
    State.otherStep_cycling _ hs', State.when_false _ hnot]
  rfl

/-- Only a delay in flight makes the time base's report matter (R161). -/
theorem State.otherStep_congr_of_not_waiting {s : State} (hw : s.block.pos.w = false) (inp inp' : Input) :
    s.otherStep inp = s.otherStep inp' := by
  simp only [State.otherStep, hw, Bool.false_and]

/-- A step is decided by the event of the outside, by what is fetched, and by what happens when nothing is. -/
theorem step_congr {s s' : State} (ho : s.takeInput.outside s.input = s'.takeInput.outside s'.input)
    (hf : s.takeInput.fetch s.input = s'.takeInput.fetch s'.input)
    (hx : s.takeInput.otherStep s.input = s'.takeInput.otherStep s'.input) : step s = step s' := by
  simp only [step, ho, hf, hx]

/-- Settles O13: neither the outside's events nor the fetch look at `delay_done`, and with `W = 0` nothing else does. -/
theorem delayDoneIsIgnoredWithoutARequest : Obligations.DelayDoneIsIgnoredWithoutARequest :=
  fun s _ rest hw => step_congr rfl rfl (State.otherStep_congr_of_not_waiting (s := s.setInputs rest) hw _ _)

/-! ### What each operation writes (R162 to R165) -/

/-- Settles O31: a `STOP` at its evaluation is one coil write, one event and the advance. -/
theorem stopDeenergizesTheMotor : Obligations.StopDeenergizesTheMotor := by
  intro m s hs hm hk hw
  exact ⟨s.writeStop m, exec_stop_evaluating ((s.evaluating_iff m).mpr ⟨hs, hm, hk, hw⟩), s.writeStop_coil m,
    s.writeStop_trace m, s.writeStop_pos m, s.writeStop_frame m⟩

theorem getLsbD_onehot (p q : Phase) : (onehot p).getLsbD q.val = decide (q = p) := by
  revert p q
  decide

/-- Settles O32: a `PHASE` where it is next is one coil write, of the pattern with its one bit set, and one event. -/
theorem phaseEnergizesOnlyThatPhase : Obligations.PhaseEnergizesOnlyThatPhase := by
  intro m p s hs hm hk hw
  refine ⟨s.writePhase m p, exec_phase_mayWritePhase ((s.mayWritePhase_iff m).mpr ⟨hs, hm, hk, hw⟩) p,
    fun m' q => ?_, ?_, val_k_add_one hk, rfl, hs, rfl, hm, s.writePhase_frame m p⟩
  · rw [State.writePhase_coil]
    split
    · exact getLsbD_onehot p q
    · rfl
  · rw [State.writePhase_coil, if_pos rfl, State.writePhase_trace]

/-- Settles O33: both begin with a phase write, of the first phase of their direction. -/
theorem stepBeginsAtTheFirstPhaseOfItsDirection : Obligations.StepBeginsAtTheFirstPhaseOfItsDirection := by
  intro i m c first s hi hs hm hk hw
  have he := (s.evaluating_iff m).mpr ⟨hs, hm, hk, hw⟩
  have hwrite : ∃ p, exec i s = .next (s.writePhase m p) ∧ onehot p = first := by
    rcases hi with ⟨rfl, rfl⟩ | ⟨rfl, rfl⟩
    · exact ⟨_, exec_stepf_evaluating he c, rfl⟩
    · exact ⟨_, exec_stepr_evaluating he c, rfl⟩
  obtain ⟨p, hx, rfl⟩ := hwrite
  refine ⟨s.writePhase m p, hx, fun m' => s.writePhase_coil m m' p, s.writePhase_trace m p, ?_,
    s.writePhase_frame m p⟩
  rw [State.writePhase_pos, hk]
  rfl

/-! ### A whole step (R163, R164) -/

theorem State.finishStep_coil (s : State) (m : Motor) :
    s.finishStep.block.coil[m] =
      if m = s.block.pos.m then onehot (stepPhase s.goesForward 3) else s.block.coil[m] :=
  s.setCoil_getElem s.block.pos.m m _

theorem State.finishStep_trace_of_evaluating {s : State} (hk : s.block.pos.k = 0) :
    s.finishStep.trace = s.trace ++ stepTrace s.block.pos.m s.goesForward := by
  rw [State.finishStep, hk]
  rfl

/-- From the evaluation of a motor whose cadence is due, eight steps make all of its step, in either direction. -/
theorem run_wholeStep {s : State} (hq : s.inputs = []) (he : s.evaluating s.block.pos.m = true) (hdue : s.stepIsDue) :
    ∃ t, Sys2Proof.core.run 8 s = .next t ∧ t.trace = s.trace ++ stepTrace s.block.pos.m s.goesForward ∧
      (∀ m : Motor, t.block.coil[m] =
        if m = s.block.pos.m then onehot (stepPhase s.goesForward 3) else s.block.coil[m]) ∧
      t.block.pos = s.block.pos.advance ∧ t.block.speed = s.block.speed ∧ t.block.flag = s.block.flag ∧
      t.block.cad = s.block.cad ∧ t.handler = s.handler ∧ t.convOut = s.convOut ∧ t.inputs = [] := by
  obtain ⟨-, -, hk, -⟩ := (s.evaluating_iff _).mp he
  have hrun : Sys2Proof.core.run 8 s = .next s.finishStep :=
    run_finishStep 3 hq (State.mayWritePhase_of_evaluating he) (fun _ => hdue) (by rw [hk]; rfl)
  exact ⟨s.finishStep, hrun, State.finishStep_trace_of_evaluating hk, s.finishStep_coil, rfl, rfl, rfl, rfl, rfl, rfl,
    hq⟩

/-- Settles O35: the whole step of a motor with a positive cadence. -/
theorem forwardStepSweepsPhases0To3 : Obligations.ForwardStepSweepsPhases0To3 := by
  rintro s m hq hs rfl hk hw hc ht
  have hpos : 0 < s.cadenceOf s.block.pos.m := by rwa [State.cadenceOf_eq_toInt]
  have hdue : s.stepIsDue := ⟨hpos.ne', (mod_period_eq_zero_iff _ _).mpr (by rwa [Int.natAbs_of_nonneg hc.le])⟩
  have hforward : s.goesForward = true := decide_eq_true hpos
  have hstep := run_wholeStep hq ((s.evaluating_iff _).mpr ⟨hs, rfl, hk, hw⟩) hdue
  rwa [hforward] at hstep

/-- Settles O36: the whole step of a motor with a negative cadence. -/
theorem reverseStepSweepsPhases3To0 : Obligations.ReverseStepSweepsPhases3To0 := by
  rintro s m hq hs rfl hk hw hc ht
  have hneg : s.cadenceOf s.block.pos.m < 0 := by rwa [State.cadenceOf_eq_toInt]
  have hdue : s.stepIsDue := ⟨hneg.ne, (mod_period_eq_zero_iff _ _).mpr (by rwa [Int.ofNat_natAbs_of_nonpos hc.le])⟩
  have hreverse : s.goesForward = false := decide_eq_false hneg.not_gt
  have hstep := run_wholeStep hq ((s.evaluating_iff _).mpr ⟨hs, rfl, hk, hw⟩) hdue
  rwa [hreverse] at hstep

/-! ### Coil registers keep their level (R167) -/

/-- A move of the block that changes a coil register is a `STOP` or a phase write of its motor. -/
theorem State.BlockMove.coil_cases {s : State} {b : Block} (h : s.BlockMove b) (m : Motor) :
    b.coil[m] = s.block.coil[m] ∨
      (s.block.pos.m = m ∧ s.mayWritePhase m = true ∧ (s.block.pos.k = 0 → s.cadenceOf m = 0 ∨ s.stepIsDue)) := by
  cases h with
  | wrb off val ha => exact .inl (by rw [State.memWrite_block_coil])
  | run ha => exact .inl rfl
  | fatal ha => exact .inl rfl
  | stop he hc =>
    rw [State.writeStop_coil]
    split
    · rename_i hm
      subst hm
      exact .inr ⟨rfl, State.mayWritePhase_of_evaluating he, fun _ => .inl hc⟩
    · exact .inl rfl
  | hold he hc hn => exact .inl rfl
  | phase hp hdue =>
    rw [State.writePhase_coil]
    split
    · rename_i hm
      subst hm
      exact .inr ⟨rfl, hp, fun hk => .inr (hdue hk)⟩
    · exact .inl rfl
  | delay hs hw hd => exact .inl (by rw [State.completeDelay_block])

/-- Settles O43: of the moves of the block only a `STOP` and a phase write reach a coil register, neither at a `HOLD`. -/
theorem coilsKeepTheirLevel : Obligations.CoilsKeepTheirLevel := by
  intro s t m h hne
  rcases step_block h with ⟨hr, -⟩ | hb | ⟨-, hmove⟩
  · exact .inl hr
  · exact absurd (by rw [hb]) hne
  rcases hmove.coil_cases m with he | ⟨rfl, hp, hselected⟩
  · exact absurd he hne
  obtain ⟨hs, -, -, hw⟩ := (s.mayWritePhase_iff _).mp hp
  refine .inr ⟨hs, rfl, hw, fun ⟨hk, hc, ht⟩ => ?_⟩
  rcases hselected hk with hzero | ⟨-, hdue⟩
  · exact hc ((s.cadenceOf_eq_toInt _).symm.trans hzero)
  · rw [period_eq_natAbs_toInt] at hdue
    exact ht hdue

end Sys2Proof.Machine
end

section
/-! The invariant of the system (spec/10_state.md R24 and R27, spec/43_sequencer.md R169, spec/44_host_protocol.md R184):
each move of the block and each step of the handler keeps its part of it. -/

namespace Sys2Proof.Machine

/-! ### The invariant of the block (R169, R27, R24, R125) -/

/-- A conversion is one of the five cadences: the two-level map has no other value (R24, R122). -/
theorem legalCadence_convert (v : Byte) : legalCadence (convert v) = true := by
  obtain ⟨hfastNeg, hslowNeg, hzero, hslowPos, hfastPos⟩ := convertIsTheTwoLevelMap v
  rcases lt_trichotomy v.toInt 0 with hneg | hstop | hpos
  · rcases Int.lt_or_le (-100) v.toInt with hslow | hfast
    · rw [hslowNeg (by omega) (by omega)]
      rfl
    · rw [hfastNeg hfast]
      rfl
  · rw [hzero hstop]
    rfl
  · rcases Int.lt_or_le v.toInt 100 with hslow | hfast
    · rw [hslowPos (by omega) (by omega)]
      rfl
    · rw [hfastPos hfast]
      rfl

theorem legalPattern_onehot (p : Phase) : legalPattern (onehot p) = true := by
  revert p
  decide

/-- A write of a legal pattern keeps every coil register off or one-hot (R169). -/
theorem legalPattern_set {coil : Vector Pattern 6} (hcoil : ∀ m : Motor, legalPattern coil[m] = true) (m : Motor)
    {pattern : Pattern} (hp : legalPattern pattern = true) (m' : Motor) :
    legalPattern (coil.set m.val pattern m.isLt)[m'] = true := by
  rw [Fin.getElem_fin, Vector.getElem_set]
  split
  · exact hp
  · exact hcoil m'

theorem Position.advance_k (p : Position) : p.advance.k = 0 := by
  unfold Position.advance
  split_ifs <;> rfl

/-- Outside a cycle the invariant asks nothing of the frame or of a step in progress. -/
theorem Block.inv_of_not_cycling {b : Block} (hcoil : ∀ m : Motor, legalPattern b.coil[m] = true)
    (hcad : ∀ m : Motor, legalCadence b.cad[m] = true) (hpos : b.pos.legal = true)
    (hs : b.pos.state ≠ .cycling) : b.Inv where
  coil := hcoil
  cad := hcad
  pos := hpos
  snapshot h := absurd h hs
  step h := absurd h hs

/-- Going forward leads to legal positions only (R27). -/
theorem Position.Forward.legal {p q : Position} (h : p.Forward q) : q.legal = true := by
  rcases h with rfl | ⟨-, hl, -⟩
  · rfl
  · exact hl

section
variable {s : State} (hinv : s.block.Inv)
include hinv

/-- A frame write in Idle keeps the invariant. -/
theorem State.memWrite_inv (hi : s.block.pos.state = .idle) (off : Offset) (val : Byte) :
    (s.memWrite off val).block.Inv := by
  refine Block.inv_of_not_cycling ?_ ?_ ?_ ?_
  · rw [State.memWrite_block_coil]
    exact hinv.coil
  · rw [State.memWrite_block_cad]
    exact hinv.cad
  · rw [State.memWrite_block_pos]
    exact hinv.pos
  · rw [State.memWrite_block_pos, hi]
    decide

/-- Cycle entry takes the snapshot of the conversions, and no step is in progress yet (R103, R125). -/
theorem State.enterCycle_inv : s.enterCycle.block.Inv where
  coil := hinv.coil
  cad m := by
    change legalCadence (convertAll s.block.speed)[m] = true
    rw [convertAll_getElem]
    exact legalCadence_convert _
  pos := by
    change Position.cycleStart.legal = true
    decide
  snapshot _ := convertAll_getElem s.block.speed
  step _ hk := absurd rfl hk

theorem State.raiseHalt_inv : s.raiseHalt.block.Inv :=
  Block.inv_of_not_cycling hinv.coil hinv.cad rfl (nomatch ·)

/-- An advance, with legal patterns on the coils, keeps the invariant: it leaves no step in progress (R146). -/
theorem Block.Inv.advance_with_coil {coil : Vector Pattern 6} (hs : s.block.pos.state = .cycling)
    (hcoil : ∀ m : Motor, legalPattern coil[m] = true) :
    { s.block with coil := coil, pos := s.block.pos.advance }.Inv where
  coil := hcoil
  cad := hinv.cad
  pos := (Position.advance_forward hs hinv.pos).legal
  snapshot _ := hinv.snapshot hs
  step _ hk := absurd (Position.advance_k _) hk

/-- A phase write that is due leaves a step in progress with its pattern on the coils (R163, R164). -/
theorem State.writePhase_inv (hp : s.mayWritePhase s.block.pos.m = true)
    (hdue : s.block.pos.k = 0 → s.stepIsDue) (hpos : (s.writePhase s.block.pos.m s.nextPhase).block.pos.legal = true) :
    (s.writePhase s.block.pos.m s.nextPhase).block.Inv where
  coil := legalPattern_set hinv.coil _ (legalPattern_onehot _)
  cad := hinv.cad
  pos := hpos
  snapshot := hinv.snapshot
  step hs _ := by
    obtain ⟨-, -, hk4, -⟩ := (s.mayWritePhase_iff _).mp hp
    have hselected : s.stepIsDue := by
      by_cases hk : s.block.pos.k = 0
      · exact hdue hk
      · obtain ⟨hc, ht, -⟩ := hinv.step hs hk
        exact ⟨hc, ht⟩
    have hcoil : (s.writePhase s.block.pos.m s.nextPhase).block.coil[s.block.pos.m] = onehot s.nextPhase := by
      rw [State.writePhase_coil, if_pos rfl]
    have hk1 : (s.block.pos.k + 1).val - 1 = s.block.pos.k.val := by rw [val_k_add_one hk4, Nat.add_sub_cancel]
    have hphase : s.nextPhase = stepPhase s.goesForward (Fin.ofNat 4 ((s.block.pos.k + 1).val - 1)) := by
      rw [hk1, State.nextPhase_eq]
    exact ⟨hselected.1, hselected.2, hcoil.trans (congrArg onehot hphase)⟩

/-- A delay completion leaves the step in progress as it is, or ends it (R161). -/
theorem State.completeDelay_inv (hs : s.block.pos.state = .cycling)
    (hpos : s.completeDelay.block.pos.legal = true) : s.completeDelay.block.Inv := by
  rw [State.completeDelay_block] at hpos ⊢
  by_cases hk : s.block.pos.k = 4
  · simp only [hk, if_true]
    exact Block.Inv.advance_with_coil hinv hs hinv.coil
  · simp only [hk, if_false] at hpos ⊢
    exact ⟨hinv.coil, hinv.cad, hpos, hinv.snapshot, hinv.step⟩

/-- Every move of the block keeps its invariant. -/
theorem State.BlockMove.inv {b : Block} (h : s.BlockMove b) : b.Inv := by
  have hforward (hs : s.block.pos.state = .cycling) : b.pos.legal = true := (h.forward hs hinv.pos).legal
  cases h with
  | wrb off val ha =>
    obtain ⟨hi, -⟩ := ha
    exact State.memWrite_inv hinv hi off val
  | run ha => exact State.enterCycle_inv hinv
  | fatal ha => exact State.raiseHalt_inv hinv
  | stop he hc =>
    obtain ⟨hs, -⟩ := (s.evaluating_iff _).mp he
    exact Block.Inv.advance_with_coil hinv hs (legalPattern_set hinv.coil _ rfl)
  | hold he hc hn =>
    obtain ⟨hs, -⟩ := (s.evaluating_iff _).mp he
    exact Block.Inv.advance_with_coil hinv hs hinv.coil
  | phase hp hdue =>
    obtain ⟨hs, -⟩ := (s.mayWritePhase_iff _).mp hp
    exact State.writePhase_inv hinv hp hdue (hforward hs)
  | delay hs hw hd => exact State.completeDelay_inv hinv hs (hforward hs)

theorem step_block_inv {t : State} (h : step s = .next t) : t.block.Inv := by
  rcases step_block h with ⟨-, hb⟩ | hb | ⟨-, hm⟩
  · exact hb ▸ Block.reset_inv
  · exact hb ▸ hinv
  · exact hm.inv hinv

end

/-! ### The handler awaits at most seven bytes (R184) -/

theorem Handler.endIteration_legal (h : Handler) (complete : Bool) : (h.endIteration complete).legal = true := by
  rw [Handler.endIteration_spec]
  rfl

theorem Handler.receiveByte_legal {h : Handler} (hl : h.legal = true) (b : Byte) : (h.receiveByte b).legal = true := by
  unfold Handler.receiveByte
  split
  · split
    · rfl
    · exact hl
  · split
    · rfl
    · exact Handler.endIteration_legal _ _
  · exact hl

theorem Handler.receiveMotor_legal {h : Handler} (hl : h.legal = true) (payload : List Byte) :
    (h.receiveMotor payload).legal = true := by
  have hb := Handler.receiveByte_legal hl motorByte
  unfold Handler.receiveMotor
  split
  · exact hb
  · exact hb
  · exact hl

/-- A payload byte is counted only while fewer than seven have arrived. -/
theorem Handler.receivePayload_legal (h : Handler) (received : Nat) : (h.receivePayload received).legal = true := by
  rcases h.receivePayload_cases received with ⟨room, b, rest, -, he⟩ | ⟨-, -, he⟩ | ⟨-, he⟩ <;> rw [he]
  · exact decide_eq_true room
  · exact Handler.endIteration_legal _ _
  · exact Handler.endIteration_legal _ _

theorem Handler.loopStep_legal (h : Handler) : h.loopStep.legal = true := by
  unfold Handler.loopStep
  split
  · rename_i hp
    simp only [Handler.legal, hp]
  · exact Handler.endIteration_legal _ _
  · exact Handler.receivePayload_legal _ _

theorem State.accept_handler_legal {effect : State → State} {s : State} (hs : s.handler.legal = true)
    (he : (effect s).handler.legal = true) : (s.accept effect).handler.legal = true := by
  unfold State.accept
  split
  · exact he
  · exact hs

theorem State.when_handler_legal {effect : State → State} {s : State} (b : Bool) (hs : s.handler.legal = true)
    (he : (effect s).handler.legal = true) : (s.when b effect).handler.legal = true := by
  cases b
  · exact hs
  · exact he

/-- Of the operations only the wire messages change the handler, by the receive of one byte. -/
theorem exec_handler_legal {i : Instr} {s t : State} (hl : s.handler.legal = true) (h : exec i s = .next t) :
    t.handler.legal = true := by
  cases i with
  | nop => cases h; exact State.accept_handler_legal hl hl
  | wrb off val => cases h; exact State.accept_handler_legal hl (by rwa [State.memWrite_handler])
  | wrb7 val => cases h
  | run => cases h; exact State.accept_handler_legal hl hl
  | fatal => cases h; exact State.accept_handler_legal hl hl
  | loadframe v f =>
    obtain ⟨speed, flag, hframe⟩ := s.wrbEach_frame_only (frameByte v f) offsets
    rw [exec_loadframe, hframe] at h
    cases h
    exact hl
  | conv v => cases h; exact hl
  | stop m => cases h; exact State.when_handler_legal _ hl hl
  | stepf m c => cases h; exact State.when_handler_legal _ hl hl
  | stepr m c => cases h; exact State.when_handler_legal _ hl hl
  | hold m c => cases h; exact State.when_handler_legal _ hl hl
  | phase m p => cases h; exact State.when_handler_legal _ hl hl
  | connect => cases h; exact State.when_handler_legal _ hl (Handler.receiveByte_legal hl _)
  | motor payload => cases h; exact State.when_handler_legal _ hl (Handler.receiveMotor_legal hl _)
  | otherWire b => cases h; exact State.when_handler_legal _ hl (Handler.receiveByte_legal hl _)

/-- A fetch takes a command off the port or a message off the wire. -/
theorem State.fetch_handler_legal {s u : State} {inp : Input} {e : Encoded} (hl : s.handler.legal = true)
    (h : s.fetch inp = some (e, u)) : u.handler.legal = true := by
  rcases State.fetch_cases h with ⟨-, -, -, rfl, -⟩ | ⟨-, -, -, -, rfl, -⟩ | ⟨_, _, -, -, -, rfl, -⟩ |
    ⟨_, _, -, -, -, rfl, -⟩
  · exact hl
  · exact hl
  · exact hl
  · exact hl

theorem step_handler_legal {s t : State} (hl : s.handler.legal = true) (h : step s = .next t) :
    t.handler.legal = true := by
  rcases step_cases h with ho | ⟨-, e, u, i, hf, -, hx⟩ | ⟨-, -, rfl⟩
  · rcases State.outside_cases ho with ⟨-, rfl⟩ | ⟨-, -, rfl⟩ | ⟨-, -, -, rfl⟩
    · exact hl
    · rfl
    · exact hl
  · exact exec_handler_legal (State.fetch_handler_legal (s := s.takeInput) hl hf) hx
  · rcases s.takeInput.otherStep_cases s.input with ⟨-, -, -, he⟩ | ⟨-, -, he⟩ | he <;> rw [he]
    · rw [State.completeDelay_spec]
      exact hl
    · exact Handler.loopStep_legal _
    · exact hl

/-- Settles O48: a step is a reset of the block, one of its moves, or none, and each keeps the block's part of the
invariant; the handler counts a payload byte only below seven. -/
theorem everyStepKeepsTheInvariant : Obligations.EveryStepKeepsTheInvariant :=
  fun _ _ hinv h => ⟨step_block_inv hinv.block h, step_handler_legal hinv.handler h⟩

end Sys2Proof.Machine
end

section
/-! The host protocol statements (spec/44_host_protocol.md): what a byte makes of the handler, what the handler does
without a message, what it transmits, and the runs of a whole MOTOR message. -/

namespace Sys2Proof.Machine

/-! ### The end of an iteration (R185, R193) -/

/-- With nothing outstanding, the end of an iteration leaves at most one word on the port: the `RUN` of the policy. -/
theorem Handler.endIteration_of_none_issued {h : Handler} (hc : h.cmds = []) (complete : Bool) :
    h.endIteration complete = { h with
      phase := .connectedIdle
      cmds := if h.policy = .always ∨ complete = true then [0x1000] else [] } := by
  rw [Handler.endIteration_spec, hc, List.nil_append]
  rfl

/-- Without a complete message, `ALWAYS` alone issues the `RUN` (R193). -/
theorem Handler.endIteration_incomplete {h : Handler} (hc : h.cmds = []) :
    h.endIteration false = { h with
      phase := .connectedIdle
      cmds := if h.policy = .always then [0x1000] else [] } := by
  simp only [Handler.endIteration_of_none_issued hc, Bool.false_eq_true, or_false]

/-! ### A byte read by the handler (R182, R183, R187) -/

/-- The handler in the payload of a MOTOR message, with `received` bytes received and `rx` on its line. -/
def Handler.inMotorPayload (h : Handler) (received : Nat) (rx : List WireEvent) : Handler :=
  { h with phase := .awaitingPayload received, pending := some motorByte, rx := rx }

section
variable {h : Handler} {b : Byte}

theorem Handler.receiveByte_connect (hp : h.phase = .disconnected) : h.receiveByte connectByte = h.handshake := by
  simp only [Handler.receiveByte, hp, if_true]

theorem Handler.receiveByte_discarded (hp : h.phase = .disconnected) (hb : b ≠ connectByte) :
    h.receiveByte b = h := by
  simp only [Handler.receiveByte, hp, hb, if_false]

theorem Handler.receiveByte_motor (hp : h.phase = .connectedIdle) : h.receiveByte motorByte = h.beginPayload := by
  simp only [Handler.receiveByte, hp, if_true]

theorem Handler.receiveByte_ignored (hp : h.phase = .connectedIdle) (hc : h.cmds = []) (hb : b ≠ motorByte) :
    h.receiveByte b = { h with
      pending := some b
      cmds := if h.policy = .always then [0x1000] else [] } := by
  have hend : h.receiveByte b = { h with pending := some b }.endIteration false := by
    simp only [Handler.receiveByte, hp, hb, if_false]
  rw [hend, Handler.endIteration_incomplete, ← hp]
  exact hc

theorem Handler.receiveByte_awaiting {n : Nat} (hp : h.phase = .awaitingPayload n) : h.receiveByte b = h := by
  simp only [Handler.receiveByte, hp]

theorem Handler.receiveMotor_disconnected (hp : h.phase = .disconnected) (payload : List Byte) :
    h.receiveMotor payload = { h with rx := payloadEvents payload ++ h.rx } := by
  simp only [Handler.receiveMotor, hp, Handler.receiveByte_discarded hp (show motorByte ≠ connectByte by decide)]

theorem Handler.receiveMotor_connectedIdle (hp : h.phase = .connectedIdle) (payload : List Byte) :
    h.receiveMotor payload = h.inMotorPayload 0 (payloadEvents payload ++ h.rx) := by
  simp only [Handler.receiveMotor, hp, Handler.receiveByte_motor hp]
  rfl

theorem Handler.receiveMotor_awaiting {n : Nat} (hp : h.phase = .awaitingPayload n) (payload : List Byte) :
    h.receiveMotor payload = h := by
  simp only [Handler.receiveMotor, hp]

end

/-! ### The operations of the wire -/

section
variable {s : State} (hr : s.receiving = true)
include hr

theorem exec_connect_of_receiving : exec .connect s = .next (s.setHandler (s.handler.receiveByte connectByte)) :=
  congrArg Host.Outcome.next (State.when_true _ hr)

theorem exec_motor_of_receiving (payload : List Byte) :
    exec (.motor payload) s = .next (s.setHandler (s.handler.receiveMotor payload)) :=
  congrArg Host.Outcome.next (State.when_true _ hr)

theorem exec_otherWire_of_receiving (b : Byte) :
    exec (.otherWire b) s = .next (s.setHandler (s.handler.receiveByte b)) :=
  congrArg Host.Outcome.next (State.when_true _ hr)

end

theorem exec_wire_of_not_receiving {i : Instr} {s : State}
    (hi : i = .connect ∨ (∃ p, i = .motor p) ∨ ∃ b, i = .otherWire b) (hr : s.receiving = false) :
    exec i s = .next s := by
  rcases hi with rfl | ⟨p, rfl⟩ | ⟨b, rfl⟩
  · exact congrArg Host.Outcome.next (State.when_false _ hr)
  · exact congrArg Host.Outcome.next (State.when_false _ hr)
  · exact congrArg Host.Outcome.next (State.when_false _ hr)

theorem exec_wire_of_awaiting {i : Instr} {s : State} {n : Nat}
    (hi : i = .connect ∨ (∃ p, i = .motor p) ∨ ∃ b, i = .otherWire b) (hr : s.receiving = true)
    (hp : s.handler.phase = .awaitingPayload n) : exec i s = .next s := by
  rcases hi with rfl | ⟨p, rfl⟩ | ⟨b, rfl⟩
  · rw [exec_connect_of_receiving hr, Handler.receiveByte_awaiting hp]
    rfl
  · rw [exec_motor_of_receiving hr, Handler.receiveMotor_awaiting hp]
    rfl
  · rw [exec_otherWire_of_receiving hr, Handler.receiveByte_awaiting hp]
    rfl

/-- Settles O52: the handshake when Disconnected; to a connected handler `0xB9` is a byte like any other. -/
theorem connectByteShakesHandsOnce : Obligations.ConnectByteShakesHandsOnce := by
  intro s hc hi
  have hr := s.receiving_iff.mpr ⟨hc, hi⟩
  refine ⟨fun hp => ?disconnected, fun hp => ?connected⟩
  case disconnected =>
    rw [exec_connect_of_receiving hr, Handler.receiveByte_connect hp]
    rfl
  case connected =>
    rw [exec_connect_of_receiving hr, Handler.receiveByte_ignored hp hc (by decide)]
    rfl

/-- Settles O53: a byte is discarded when Disconnected, and ends the iteration when connected. -/
theorem otherWireBytesAreIgnored : Obligations.OtherWireBytesAreIgnored := by
  intro b s hc hi
  have hr := s.receiving_iff.mpr ⟨hc, hi⟩
  refine ⟨fun hp hb => ?disconnected, fun hp hb => ?connected⟩
  case disconnected =>
    rw [exec_otherWire_of_receiving hr, Handler.receiveByte_discarded hp hb]
    rfl
  case connected =>
    rw [exec_otherWire_of_receiving hr, Handler.receiveByte_ignored hp hc hb]
    rfl

/-- Settles O55: a handler that is not receiving runs no wire operation, and one that awaits a payload reads none. -/
theorem wireOperationsNeedAFreeHandler : Obligations.WireOperationsNeedAFreeHandler := by
  intro i payload b s
  refine ⟨fun hc hi hp => ?_, fun hwire hbusy => ?_⟩
  · rw [exec_motor_of_receiving (s.receiving_iff.mpr ⟨hc, hi⟩), Handler.receiveMotor_disconnected hp]
    rfl
  · have hwire : i = .connect ∨ (∃ p, i = .motor p) ∨ ∃ b, i = .otherWire b :=
      hwire.imp_right (Or.imp (Exists.intro payload) (Exists.intro b))
    cases hr : s.receiving with
    | false => exact exec_wire_of_not_receiving hwire hr
    | true =>
      obtain ⟨hc, hi⟩ := s.receiving_iff.mp hr
      rcases hbusy with hc' | hi' | ⟨n, hp⟩
      · exact absurd hc hc'
      · exact absurd hi hi'
      · exact exec_wire_of_awaiting hwire hr hp

/-! ### A step that takes a message off the wire (R80, R182, R183) -/

section
variable {s : State} (hr : s.input.rst = false) (hs : s.input.restart = false) (hg : s.input.giveUp = false)
  (hi : s.block.pos.state = .idle) (hc : s.handler.cmds = [])
include hr hs hg hi hc

theorem step_of_byte_disconnected {b : Byte} {rest : List WireEvent} (hp : s.handler.phase = .disconnected)
    (hx : s.handler.rx = .byte b :: rest) :
    step s = exec (if b = connectByte then .connect else .otherWire b)
      { s with inputs := s.inputs.tail, handler.rx := rest } := by
  apply step_of_wireMessage hr hs hg hi hc (events := [.byte b])
  · rw [hp, hx]
    rfl
  · rw [hp]
    rfl

theorem step_of_ignored_byte {b : Byte} {rest : List WireEvent} (hp : s.handler.phase = .connectedIdle)
    (hb : b ≠ motorByte) (hx : s.handler.rx = .byte b :: rest) :
    step s = exec (.otherWire b) { s with inputs := s.inputs.tail, handler.rx := rest } := by
  apply step_of_wireMessage hr hs hg hi hc (events := [.byte b])
  · simp only [hp, hx, wireMessage, hb, if_false]
  · simp only [hp, decodeWire, hb, if_false, if_true]

theorem step_of_motorMessage {payload : List Byte} {rest : List WireEvent} (hp : s.handler.phase = .connectedIdle)
    (hl : payload.length ≤ payloadLength)
    (hm : wireMessage .connectedIdle s.handler.rx = some (.byte motorByte :: payloadEvents payload, rest)) :
    step s = exec (.motor payload) { s with inputs := s.inputs.tail, handler.rx := rest } := by
  apply step_of_wireMessage hr hs hg hi hc (events := .byte motorByte :: payloadEvents payload)
  · rw [hp, hm]
  · rw [hp, decodeWire_motor hl]

/-- Whatever follows it, the byte `0xA8` begins a payload: what was looked at as operand stands on the line again. -/
theorem step_of_motorByte {rx : List WireEvent} (hp : s.handler.phase = .connectedIdle)
    (hx : s.handler.rx = .byte motorByte :: rx) :
    step s = .next { s with inputs := s.inputs.tail, handler := s.handler.inMotorPayload 0 rx } := by
  have hm : wireMessage .connectedIdle s.handler.rx =
      some (.byte motorByte :: payloadEvents (takePayload payloadLength rx).1, (takePayload payloadLength rx).2) := by
    simp only [hx, wireMessage, if_true]
  have hfree : ({ s with inputs := s.inputs.tail, handler.rx := (takePayload payloadLength rx).2 } : State).receiving :=
    (State.receiving_iff _).mpr ⟨hc, hi⟩
  rw [step_of_motorMessage hr hs hg hi hc hp (takePayload_length _ _) hm, exec_motor_of_receiving hfree,
    Handler.receiveMotor_connectedIdle, takePayload_append]
  · rfl
  · exact hp

end

/-- Settles O60: the message on the wire and its decoding, in each state that reads one. -/
theorem wireMessageIsReadAndRun : Obligations.WireMessageIsReadAndRun := by
  intro s b payload rest hr hs hg hi hc
  refine ⟨step_of_byte_disconnected hr hs hg hi hc, step_of_ignored_byte hr hs hg hi hc, fun hp hx hl hend => ?_⟩
  exact step_of_motorMessage hr hs hg hi hc hp hl (hx ▸ wireMessage_motor hl hend)

/-! ### A step of the free handler without a message (R184, R185, R189) -/

/-- A line that is silent, or on which the receive times out or fails, has no byte next on it. -/
theorem ne_byte_of_silent {rx : List WireEvent}
    (h : rx = [] ∨ ∃ rest, rx = .timeout :: rest ∨ rx = .error :: rest) (b : Byte) (rest : List WireEvent) :
    rx ≠ .byte b :: rest := by
  rcases h with rfl | ⟨r, rfl | rfl⟩ <;> simp

theorem wireMessage_of_no_byte (phase : HandlerPhase) {rx : List WireEvent} (h : ∀ b rest, rx ≠ .byte b :: rest) :
    wireMessage phase rx = none := by
  unfold wireMessage
  split
  · exact absurd rfl (h _ _)
  · exact absurd rfl (h _ _)
  · rfl

theorem wireMessage_awaiting (n : Nat) (rx : List WireEvent) : wireMessage (.awaitingPayload n) rx = none := by
  simp only [wireMessage]

theorem step_of_no_message {s : State} (ho : s.takeInput.outside s.input = none) (hi : s.block.pos.state = .idle)
    (hc : s.handler.cmds = []) (hm : wireMessage s.handler.phase s.handler.rx = none) :
    step s = .next { s with inputs := s.inputs.tail, handler := s.handler.loopStep } := by
  have hfetch : s.takeInput.fetch s.input = none := by
    simp only [State.fetch, State.takeInput_block, State.takeInput_handler, hi, hc, hm]
  have hother : s.takeInput.otherStep s.input = s.takeInput.setHandler s.handler.loopStep := by
    simp [State.otherStep, hi, hc]
  rw [step_of_nothing_fetched ho hfetch, hother]
  rfl

theorem step_of_awaiting {s : State} {n : Nat} (ho : s.takeInput.outside s.input = none)
    (hi : s.block.pos.state = .idle) (hc : s.handler.cmds = []) (hp : s.handler.phase = .awaitingPayload n) :
    step s = .next { s with inputs := s.inputs.tail, handler := s.handler.loopStep } :=
  step_of_no_message ho hi hc (by rw [hp, wireMessage_awaiting])

section
variable {h : Handler}

theorem Handler.loopStep_disconnected (hp : h.phase = .disconnected) : h.loopStep = { h with rx := h.rx.tail } := by
  simp only [Handler.loopStep, hp]

theorem Handler.loopStep_connectedIdle (hp : h.phase = .connectedIdle) :
    h.loopStep = { h with pending := none, rx := h.rx.tail }.endIteration false := by
  simp only [Handler.loopStep, hp]

theorem Handler.loopStep_awaiting {n : Nat} (hp : h.phase = .awaitingPayload n) : h.loopStep = h.receivePayload n := by
  simp only [Handler.loopStep, hp]

/-- A payload byte is taken off the line and its `WRB` issued (R184). -/
theorem Handler.loopStep_payloadByte (hc : h.cmds = []) {j : Offset} (hp : h.phase = .awaitingPayload j.val) {b : Byte}
    {rest : List WireEvent} (hx : h.rx = .byte b :: rest) :
    h.loopStep = { h with phase := .awaitingPayload (j.val + 1), rx := rest, cmds := [wrbWord j b] } := by
  have hroom : j.val < payloadLength := j.isLt
  have hreceive : h.receivePayload j.val = { h with rx := rest }.receivePayloadByte j b := by
    simp only [Handler.receivePayload, hroom, dif_pos, hx]
  rw [Handler.loopStep_awaiting hp, hreceive, Handler.receivePayloadByte_spec, hc]
  rfl

/-- A receive without a byte ends a payload that is not complete (R184, R185). -/
theorem Handler.loopStep_shortPayload (hc : h.cmds = []) {n : Nat} (hp : h.phase = .awaitingPayload n) (hn : n < 7)
    (hx : ∀ b rest, h.rx ≠ .byte b :: rest) :
    h.loopStep = { h with
      phase := .connectedIdle
      rx := h.rx.tail
      cmds := if h.policy = .always then [0x1000] else [] } := by
  rw [Handler.loopStep_awaiting hp]
  rcases h.receivePayload_cases n with ⟨-, b, rest, hb, -⟩ | ⟨-, -, he⟩ | ⟨hfull, -⟩
  · exact absurd hb (hx b rest)
  · rw [he, Handler.endIteration_incomplete]
    exact hc
  · omega

/-- After the seventh payload byte the iteration ends (R185). -/
theorem Handler.loopStep_fullPayload (hc : h.cmds = []) (hp : h.phase = .awaitingPayload 7) :
    h.loopStep = { h with
      phase := .connectedIdle
      cmds := if h.policy = .always ∨ h.pending = some motorByte then [0x1000] else [] } := by
  have hreceive : h.receivePayload 7 = h.endIteration (h.pending == some motorByte) := by
    simp [Handler.receivePayload, payloadLength]
  rw [Handler.loopStep_awaiting hp, hreceive, Handler.endIteration_of_none_issued hc]
  simp only [beq_iff_eq]

end

/-- Settles O57: nothing is fetched, so the step is the handler's own, in each of its states. -/
theorem iterationEndsWithRunAsThePolicySays : Obligations.IterationEndsWithRunAsThePolicySays := by
  intro s hr hs hg hc hi
  have ho := s.takeInput.outside_eq_none hr hs hg
  refine ⟨fun hp => ?_, fun hsilent => ?_⟩
  · rw [step_of_awaiting ho hi hc hp, Handler.loopStep_fullPayload hc hp]
    rfl
  have hx := ne_byte_of_silent hsilent
  have hm := wireMessage_of_no_byte s.handler.phase hx
  refine ⟨fun n hn hp => ?awaiting, fun hp => ?connected, fun hp => ?disconnected⟩
  case awaiting =>
    rw [step_of_awaiting ho hi hc hp, Handler.loopStep_shortPayload hc hp hn hx]
  case connected =>
    rw [step_of_no_message ho hi hc hm, Handler.loopStep_connectedIdle hp, Handler.endIteration_incomplete, ← hp]
    exact hc
  case disconnected =>
    rw [step_of_no_message ho hi hc hm, Handler.loopStep_disconnected hp]

/-! ### The words of a payload (R105, R184) -/

theorem frameByte_getElem? (v : Vector Byte 6) (f : Byte) (j : Offset) :
    (v.toList ++ [f])[j.val]? = some (frameByte v f j) := by
  have hj := j.isLt
  by_cases h : j.val < 6
  · simp [frameByte, h]
  · simp [frameByte, show j.val = 6 by omega]

theorem frameWords_getElem? (v : Vector Byte 6) (f : Byte) (j : Offset) :
    (frameWords v f)[j.val]? = some (wrbWord j (frameByte v f j)) := by
  have hj : offsets[j.val]? = some j := by
    revert j
    decide
  rw [frameWords_eq_wrbWords, wrbWords, List.getElem?_map, hj, Option.map_some]

/-- Settles O54: the command-id byte begins the payload, and each payload byte issues its word of the `LOADFRAME`. -/
theorem motorMessageIssuesItsWrites : Obligations.MotorMessageIssuesItsWrites := by
  intro s hc hi
  refine ⟨fun payload hp => ?_, fun j b rest hr hs hg hp hx => ⟨wrbWord j b, ?_, decodeCmd_wrbWord j b, ?_⟩⟩
  · rw [exec_motor_of_receiving (s.receiving_iff.mpr ⟨hc, hi⟩), Handler.receiveMotor_connectedIdle hp]
    rfl
  · rw [step_of_awaiting (State.outside_eq_none _ hr hs hg) hi hc hp, Handler.loopStep_payloadByte hc hp hx]
  · intro v f words henc hb
    obtain rfl : frameWords v f = words := Encoded.cmds.inj henc
    obtain rfl : frameByte v f j = b := Option.some.inj ((frameByte_getElem? v f j).symm.trans hb)
    exact frameWords_getElem? v f j

/-! ### What is transmitted (R182, R188) -/

theorem Handler.endIteration_tx (h : Handler) (complete : Bool) : (h.endIteration complete).tx = h.tx := by
  rw [Handler.endIteration_spec]

theorem Handler.loopStep_tx (h : Handler) : h.loopStep.tx = h.tx := by
  cases hp : h.phase with
  | disconnected => rw [Handler.loopStep_disconnected hp]
  | connectedIdle => rw [Handler.loopStep_connectedIdle hp, Handler.endIteration_tx]
  | awaitingPayload n =>
    rw [Handler.loopStep_awaiting hp]
    rcases h.receivePayload_cases n with ⟨room, b, rest, -, he⟩ | ⟨-, -, he⟩ | ⟨-, he⟩ <;> rw [he]
    · rw [Handler.endIteration_tx]
    · rw [Handler.endIteration_tx]

/-- A byte read makes the handler transmit in one case: the handshake. -/
theorem Handler.receiveByte_tx (h : Handler) (b : Byte) :
    (h.receiveByte b).tx = h.tx ∨
      (h.phase = .disconnected ∧ b = connectByte ∧ h.receiveByte b = h.handshake) := by
  cases hp : h.phase with
  | disconnected =>
    by_cases hb : b = connectByte
    · subst hb
      exact .inr ⟨rfl, rfl, Handler.receiveByte_connect hp⟩
    · exact .inl (by rw [Handler.receiveByte_discarded hp hb])
  | connectedIdle =>
    by_cases hb : b = motorByte
    · subst hb
      exact .inl (by rw [Handler.receiveByte_motor hp]; rfl)
    · refine .inl ?_
      simp only [Handler.receiveByte, hp, hb, if_false, Handler.endIteration_tx]
  | awaitingPayload n => exact .inl (by rw [Handler.receiveByte_awaiting hp])

theorem Handler.receiveMotor_tx (h : Handler) (payload : List Byte) : (h.receiveMotor payload).tx = h.tx := by
  cases hp : h.phase with
  | disconnected => rw [Handler.receiveMotor_disconnected hp]
  | connectedIdle =>
    rw [Handler.receiveMotor_connectedIdle hp]
    rfl
  | awaitingPayload n => rw [Handler.receiveMotor_awaiting hp]

theorem State.accept_handler {effect : State → State} {s : State} (he : (effect s).handler = s.handler) :
    (s.accept effect).handler = s.handler := by
  unfold State.accept
  split
  · exact he
  · rfl

theorem State.when_handler {effect : State → State} {s : State} (b : Bool) (he : (effect s).handler = s.handler) :
    (s.when b effect).handler = s.handler := by
  cases b
  · rfl
  · exact he

/-- Only the wire operations touch the handler: the others are the block's. -/
theorem exec_handler_of_not_wire {i : Instr} {s t : State}
    (hi : ¬ (i = .connect ∨ (∃ p, i = .motor p) ∨ ∃ b, i = .otherWire b)) (h : exec i s = .next t) :
    t.handler = s.handler := by
  cases i with
  | nop => cases h; exact State.accept_handler rfl
  | wrb off val => cases h; exact State.accept_handler (s.memWrite_handler off val)
  | wrb7 val => cases h
  | run => cases h; exact State.accept_handler rfl
  | fatal => cases h; exact State.accept_handler rfl
  | loadframe v f =>
    obtain ⟨speed, flag, hframe⟩ := s.wrbEach_frame_only (frameByte v f) offsets
    rw [exec_loadframe, hframe] at h
    cases h
    rfl
  | conv v => cases h; rfl
  | stop m => cases h; exact State.when_handler _ rfl
  | stepf m c => cases h; exact State.when_handler _ rfl
  | stepr m c => cases h; exact State.when_handler _ rfl
  | hold m c => cases h; exact State.when_handler _ rfl
  | phase m p => cases h; exact State.when_handler _ rfl
  | connect => exact absurd (.inl rfl) hi
  | motor payload => exact absurd (.inr (.inl ⟨payload, rfl⟩)) hi
  | otherWire b => exact absurd (.inr (.inr ⟨b, rfl⟩)) hi

/-- Of the operations only a connect byte read by a free handler makes anything be transmitted. -/
theorem exec_tx {i : Instr} {s t : State} (h : exec i s = .next t) :
    t.handler.tx = s.handler.tx ∨
      (s.block.pos.state = .idle ∧ s.handler.phase = .disconnected ∧ (i = .connect ∨ i = .otherWire connectByte) ∧
        t.handler = s.handler.handshake) := by
  by_cases hwire : i = .connect ∨ (∃ p, i = .motor p) ∨ ∃ b, i = .otherWire b
  · cases hr : s.receiving with
    | false =>
      cases (exec_wire_of_not_receiving hwire hr).symm.trans h
      exact .inl rfl
    | true =>
      obtain ⟨-, hi⟩ := s.receiving_iff.mp hr
      rcases hwire with rfl | ⟨payload, rfl⟩ | ⟨b, rfl⟩
      · cases (exec_connect_of_receiving hr).symm.trans h
        exact (s.handler.receiveByte_tx connectByte).imp_right fun ⟨hp, _, he⟩ => ⟨hi, hp, .inl rfl, he⟩
      · cases (exec_motor_of_receiving hr payload).symm.trans h
        exact .inl (s.handler.receiveMotor_tx payload)
      · cases (exec_otherWire_of_receiving hr b).symm.trans h
        exact (s.handler.receiveByte_tx b).imp_right fun ⟨hp, hb, he⟩ => ⟨hi, hp, .inr (by rw [hb]), he⟩
  · exact .inl (congrArg Handler.tx (exec_handler_of_not_wire hwire h))

/-- A fetch takes a word off the port or a message off the wire, and leaves the rest alone. -/
theorem State.fetch_frame {s u : State} {inp : Input} {e : Encoded} (h : s.fetch inp = some (e, u)) :
    u.block = s.block ∧ u.handler.phase = s.handler.phase ∧ u.handler.tx = s.handler.tx := by
  rcases State.fetch_cases h with ⟨-, -, -, rfl, -⟩ | ⟨-, -, -, -, rfl, -⟩ | ⟨_, _, -, -, -, rfl, -⟩ |
    ⟨_, _, -, -, -, rfl, -⟩
  · exact ⟨rfl, rfl, rfl⟩
  · exact ⟨rfl, rfl, rfl⟩
  · exact ⟨rfl, rfl, rfl⟩
  · exact ⟨rfl, rfl, rfl⟩

/-- A command word never decodes to an operation of the wire. -/
theorem decodeCmd_ne_wire (w : CmdWord) :
    ¬ (decodeCmd w = .connect ∨ (∃ p, decodeCmd w = .motor p) ∨ ∃ b, decodeCmd w = .otherWire b) := by
  rcases decodeCmd_cases w with h | ⟨off, val, h⟩ | ⟨val, h⟩ | h | h <;> simp [h]

/-- A Disconnected handler takes one byte off its wire, and only `0xB9` decodes to a connect byte (R182). -/
theorem rx_of_connect_decoded {rx events rest : List WireEvent} {i : Instr}
    (hm : wireMessage .disconnected rx = some (events, rest)) (hd : decodeWire .disconnected events = some i)
    (hi : i = .connect ∨ i = .otherWire connectByte) : rx = .byte connectByte :: rest := by
  match rx, hm with
  | .byte b :: r, hm =>
    obtain ⟨rfl, rfl⟩ : [WireEvent.byte b] = events ∧ r = rest := by simpa [wireMessage] using hm
    have hb : b = connectByte := by
      by_contra hb
      have hother : Instr.otherWire b = i := by simpa [decodeWire, hb] using hd
      subst hother
      simp [hb] at hi
    rw [hb]

/-- The connect byte that a fetched operation stands for was the first on the wire. -/
theorem State.rx_of_connect_fetched {s u : State} {inp : Input} {e : Encoded} {i : Instr}
    (hf : s.fetch inp = some (e, u)) (hd : decode u.decodeCtx e = some i) (hs : s.block.pos.state = .idle)
    (hp : s.handler.phase = .disconnected) (hi : i = .connect ∨ i = .otherWire connectByte) :
    ∃ rest, s.handler.rx = .byte connectByte :: rest := by
  rcases State.fetch_cases hf with ⟨hcyc, -⟩ | ⟨hcyc, -⟩ | ⟨word, rest, -, -, -, -, rfl⟩ |
    ⟨events, rest, -, -, hm, rfl, rfl⟩
  · exact absurd (hs.symm.trans hcyc) (by decide)
  · exact absurd (hs.symm.trans hcyc) (by decide)
  · cases hd
    exact absurd (hi.imp_right fun h => .inr ⟨_, h⟩) (decodeCmd_ne_wire word)
  · rw [hp] at hm
    have hd : decodeWire .disconnected events = some i := hp ▸ hd
    exact ⟨rest, rx_of_connect_decoded hm hd hi⟩

theorem State.outside_tx {s t : State} {inp : Input} (h : s.outside inp = some t) : t.handler.tx = s.handler.tx := by
  rcases State.outside_cases h with ⟨-, rfl⟩ | ⟨-, -, rfl⟩ | ⟨-, -, -, rfl⟩
  · rfl
  · rfl
  · rfl

theorem State.otherStep_tx (s : State) (inp : Input) : (s.otherStep inp).handler.tx = s.handler.tx := by
  rcases s.otherStep_cases inp with ⟨-, -, -, he⟩ | ⟨-, -, he⟩ | he <;> rw [he]
  · rw [State.completeDelay_spec]
    rfl
  · exact s.handler.loopStep_tx

/-- Settles O56: neither the outside nor the handler's own steps transmit, and of the operations only the handshake
does. -/
theorem deviceTransmitsOnlyTheHandshake : Obligations.DeviceTransmitsOnlyTheHandshake := by
  intro s t h
  rcases step_cases h with ho | ⟨-, e, u, i, hf, hd, hx⟩ | ⟨-, -, rfl⟩
  · exact .inl (State.outside_tx (s := s.takeInput) ho)
  · obtain ⟨hblock, hphase, htx⟩ := State.fetch_frame hf
    rcases exec_tx hx with hsame | ⟨hs, hp, hi, he⟩
    · exact .inl (hsame.trans htx)
    · have hp : s.handler.phase = .disconnected := hphase.symm.trans hp
      have hs : s.takeInput.block.pos.state = .idle := hblock ▸ hs
      refine .inr ⟨hp, State.rx_of_connect_fetched (s := s.takeInput) hf hd hs hp hi, by rw [he]; rfl, ?_⟩
      rw [he, Handler.handshake, htx]
      rfl
  · exact .inl (s.takeInput.otherStep_tx s.input)

/-! ### A MOTOR message under a quiet outside (R184, R186) -/

/-- A complete MOTOR message is followed by `RUN` under both policies (R193). -/
theorem Handler.inMotorPayload_full {h : Handler} (hc : h.cmds = []) (rx : List WireEvent) :
    (h.inMotorPayload 7 rx).loopStep = { h with
      phase := .connectedIdle
      pending := some motorByte
      rx := rx
      cmds := [runWord] } := by
  rw [Handler.loopStep_fullPayload (h := h.inMotorPayload 7 rx) hc rfl, if_pos (.inr rfl)]
  rfl

theorem Handler.inMotorPayload_short {h : Handler} (hc : h.cmds = []) {received : Nat} (hn : received < 7)
    {rx : List WireEvent} (hx : ∀ b rest, rx ≠ .byte b :: rest) :
    (h.inMotorPayload received rx).loopStep = { h with
      phase := .connectedIdle
      pending := some motorByte
      rx := rx.tail
      cmds := if h.policy = .always then [0x1000] else [] } :=
  Handler.loopStep_shortPayload (h := h.inMotorPayload received rx) hc rfl hn hx

/-- A quiet schedule has no entry to take, so a step that writes the handler writes nothing else. -/
theorem State.next_handler_of_quiet {s : State} (hq : s.inputs = []) (h : Handler) :
    ({ s with inputs := s.inputs.tail, handler := h } : State) = s.setHandler h :=
  congrArg (State.setHandler · h) (State.takeInput_of_quiet hq)

section
variable {s : State} (hq : s.inputs = []) (hi : s.block.pos.state = .idle)
include hq hi

theorem step_of_quiet_motorByte {rx : List WireEvent} (hc : s.handler.cmds = [])
    (hp : s.handler.phase = .connectedIdle) (hx : s.handler.rx = .byte motorByte :: rx) :
    step s = .next (s.setHandler (s.handler.inMotorPayload 0 rx)) := by
  have hin := State.input_of_quiet hq
  rw [step_of_motorByte (by rw [hin]; rfl) (by rw [hin]; rfl) (by rw [hin]; rfl) hi hc hp hx,
    State.next_handler_of_quiet hq]

theorem step_of_quiet_awaiting {n : Nat} (hc : s.handler.cmds = []) (hp : s.handler.phase = .awaitingPayload n) :
    step s = .next (s.setHandler s.handler.loopStep) := by
  rw [step_of_awaiting (State.outside_of_quiet hq) hi hc hp, State.next_handler_of_quiet hq]

/-- The `RUN` that a handler has issued, accepted. -/
theorem step_of_quiet_run (hc : s.handler.cmds = [runWord]) :
    step s = .next (s.enterCycle.setHandler { s.handler with cmds := [] }) := by
  have hdecode : decodeCmd runWord = .run := decodeCmd_run (cmdOp_cmdWord ..)
  rw [step_of_presented (State.outside_of_quiet hq) hi hc (by rw [State.input_of_quiet hq]; rfl), hdecode,
    State.next_handler_of_quiet hq, exec_run_idle (by exact hi)]
  rfl

/-- A payload byte is received, and then its `WRB` accepted. -/
theorem run_of_payloadByte {j : Offset} {b : Byte} {rest : List WireEvent} (hc : s.handler.cmds = [])
    (hp : s.handler.phase = .awaitingPayload j.val) (hx : s.handler.rx = .byte b :: rest) (n : Nat) :
    Sys2Proof.core.run (n + 2) s = Sys2Proof.core.run n ((s.wrb j b).setHandler { s.handler with
      phase := .awaitingPayload (j.val + 1)
      rx := rest }) := by
  have hreceive := step_of_quiet_awaiting hq hi hc hp
  rw [Handler.loopStep_payloadByte hc hp hx] at hreceive
  have haccept := step_of_quiet_wrb (s := s.setHandler { s.handler with
    phase := .awaitingPayload (j.val + 1), rx := rest, cmds := [wrbWord j b] }) hi hq rfl
  rw [core_run_succ hreceive, core_run_succ haccept, State.wrb_setHandler, ← hc]
  rfl

end

theorem State.wrb_inputs (s : State) (off : Offset) (val : Byte) : (s.wrb off val).inputs = s.inputs := by
  obtain ⟨speed, flag, hone⟩ := s.wrb_frame_only off val
  rw [hone]

/-- The payload bytes of the offsets from `n` on are received and written one after the other. -/
theorem run_of_payload {s : State} {bytes : Offset → Byte} {offs : List Offset} {n : Nat} {rest : List WireEvent}
    (hq : s.inputs = []) (hi : s.block.pos.state = .idle) (hc : s.handler.cmds = [])
    (hp : s.handler.phase = .awaitingPayload n) (hoffs : offs.map Fin.val = List.range' n offs.length)
    (hx : s.handler.rx = payloadEvents (offs.map bytes) ++ rest) :
    Sys2Proof.core.run (2 * offs.length) s = .next ((s.wrbEach bytes offs).setHandler { s.handler with
      phase := .awaitingPayload (n + offs.length)
      rx := rest }) := by
  induction offs generalizing s n with
  | nil =>
    have hsame : s.handler = { s.handler with phase := .awaitingPayload (n + 0), rx := rest } := by
      rw [Nat.add_zero, ← hp, ← show s.handler.rx = rest from hx]
    exact congrArg (fun h => Host.Outcome.next (s.setHandler h)) hsame
  | cons off offs ih =>
    obtain ⟨rfl, hoffs⟩ : off.val = n ∧ offs.map Fin.val = List.range' (n + 1) offs.length := by
      simpa [List.range'_succ] using hoffs
    have hfirst := run_of_payloadByte (rest := payloadEvents (offs.map bytes) ++ rest) hq hi hc hp hx (2 * offs.length)
    have hrest := ih (s := (s.wrb off (bytes off)).setHandler { s.handler with
        phase := .awaitingPayload (off.val + 1), rx := payloadEvents (offs.map bytes) ++ rest })
      (by rw [State.setHandler_inputs, State.wrb_inputs, hq]) (by rw [State.setHandler_block, State.wrb_pos, hi])
      hc rfl hoffs rfl
    rw [State.wrbEach_setHandler, ← State.wrbEach_cons, Nat.add_right_comm] at hrest
    exact hfirst.trans hrest

/-- The command-id byte, the payload bytes that stand on the line after it, and the handler's next step. -/
theorem run_of_motorMessage {s : State} {bytes : Offset → Byte} {offs : List Offset} {rest : List WireEvent}
    (hq : s.inputs = []) (hi : s.block.pos.state = .idle) (hc : s.handler.cmds = [])
    (hp : s.handler.phase = .connectedIdle) (hoffs : offs.map Fin.val = List.range' 0 offs.length)
    (hx : s.handler.rx = .byte motorByte :: (payloadEvents (offs.map bytes) ++ rest)) :
    Sys2Proof.core.run (2 * offs.length + 2) s =
      .next ((s.wrbEach bytes offs).setHandler (s.handler.inMotorPayload offs.length rest).loopStep) := by
  have hpayload := run_of_payload
    (s := s.setHandler (s.handler.inMotorPayload 0 (payloadEvents (offs.map bytes) ++ rest))) hq hi hc rfl hoffs rfl
  rw [State.wrbEach_setHandler, Nat.zero_add] at hpayload
  obtain ⟨speed, flag, hframe⟩ := s.wrbEach_frame_only bytes offs
  rw [hframe] at hpayload ⊢
  have hend := step_of_quiet_awaiting (s := ({ s with block.speed := speed, block.flag := flag } : State).setHandler
    (s.handler.inMotorPayload offs.length rest)) hq hi hc rfl
  calc Sys2Proof.core.run (2 * offs.length + 2) s
    _ = Sys2Proof.core.run (2 * offs.length + 1) _ := core_run_succ (step_of_quiet_motorByte hq hi hc hp hx) _
    _ = Sys2Proof.core.run 1 _ := core_run_add hpayload
    _ = .next _ := core_run_succ hend 0

/-- In Idle the `WRB`s of a whole frame leave that frame. -/
theorem State.wrbEach_offsets {s : State} (hi : s.block.pos.state = .idle) (v : Vector Byte 6) (f : Byte) :
    s.wrbEach (frameByte v f) offsets = { s with block.speed := v, block.flag := f } :=
  Host.Outcome.next.inj ((exec_loadframe v f s).symm.trans (exec_loadframe_idle hi v f))

/-- Settles O58: the message is received and written, the iteration ends as a complete one, and its `RUN` is
accepted. -/
theorem completeMotorMessageStartsItsCycle : Obligations.CompleteMotorMessageStartsItsCycle := by
  intro s v f rest hq hi hc hp hx
  have hmessage := run_of_motorMessage (bytes := frameByte v f) (offs := offsets) hq hi hc hp rfl hx
  have hend := Handler.inMotorPayload_full hc rest
  rw [State.wrbEach_offsets hi, show offsets.length = 7 from rfl, hend] at hmessage
  have hrun := step_of_quiet_run (s := ({ s with block.speed := v, block.flag := f } : State).setHandler
    { s.handler with phase := .connectedIdle, pending := some motorByte, rx := rest, cmds := [runWord] }) hq hi rfl
  refine ⟨_, (core_run_add (b := 1) hmessage).trans (core_run_succ hrun 0), rfl, rfl, fun m => ?_, rfl, rfl, rfl, ?_,
    rfl⟩
  · exact (congrArg BitVec.toInt (convertAll_getElem v m)).trans (convert_toInt v[m])
  · rw [← hp, ← hc]
    rfl

/-- The bytes of a payload by offset, and those of the old frame where no byte arrived (R54). -/
def State.overlay (s : State) (payload : List Byte) (off : Offset) : Byte := (payload[off.val]?).getD (s.memRead off)

theorem map_val_take_offsets : ∀ j ≤ 7, (offsets.take j).map Fin.val = List.range' 0 j := by decide

/-- The first offsets get the payload's bytes. -/
theorem State.map_overlay_take_offsets (s : State) {payload : List Byte} (hl : payload.length ≤ 7) :
    (offsets.take payload.length).map (s.overlay payload) = payload := by
  have hoff : ∀ i, (h : i < offsets.length) → offsets[i].val = i := by decide
  refine List.ext_getElem (by simpa [offsets] using hl) fun i hi hi' => ?_
  have hi7 : i < offsets.length := by simpa [offsets] using hi'.trans_le hl
  simp [State.overlay, hoff i hi7, hi']

/-- In Idle the `WRB`s of a payload write the bytes that arrived and no others. -/
theorem State.memRead_wrbEach_overlay {s : State} (hi : s.block.pos.state = .idle) {payload : List Byte}
    (hl : payload.length ≤ 7) (off : Offset) :
    (s.wrbEach (s.overlay payload) (offsets.take payload.length)).memRead off = s.overlay payload off := by
  rw [State.memRead_wrbEach hi, ite_eq_left_iff, mem_take_offsets off _ hl]
  intro hoff
  rw [State.overlay, List.getElem?_eq_none (Nat.le_of_not_lt hoff), Option.getD_none]

/-- Settles O59: the bytes that arrived are received and written, and then a receive without a byte ends the
iteration. -/
theorem partialPayloadWritesOnlyWhatArrived : Obligations.PartialPayloadWritesOnlyWhatArrived := by
  intro s payload ended rest hl hended hq hi hc hp hx
  have hlen : (offsets.take payload.length).length = payload.length := List.length_take_of_le (show _ ≤ 7 by omega)
  have hbytes := s.map_overlay_take_offsets hl.le
  have hmessage := run_of_motorMessage (bytes := s.overlay payload) (offs := offsets.take payload.length)
    (rest := ended) hq hi hc hp (by rw [hlen, map_val_take_offsets _ hl.le]) (by rw [hbytes]; exact hx)
  obtain ⟨hsilent, rfl⟩ : (ended = [] ∨ ∃ rest, ended = .timeout :: rest ∨ ended = .error :: rest) ∧
      ended.tail = rest := by
    rcases hended with rfl | rfl | ⟨rfl, rfl⟩ <;> simp
  rw [hlen, Handler.inMotorPayload_short hc hl (ne_byte_of_silent hsilent)] at hmessage
  obtain ⟨speed, flag, hframe⟩ := s.wrbEach_frame_only (s.overlay payload) (offsets.take payload.length)
  have hread := s.memRead_wrbEach_overlay hi hl.le
  rw [hframe] at hmessage hread
  refine ⟨_, hmessage, hread, rfl, rfl, rfl, rfl, ?_⟩
  rw [← hp]
  rfl

end Sys2Proof.Machine
end

section
/-! The exception statement (spec/60_exceptions.md): nothing faults, and the one refusal of an operation is `WRB 7`
(R200, R201, R106). -/

namespace Sys2Proof.Machine

/-- Settles O47, by the kind of the operation: an operation that has no step where it stands answers the state it was
given (`State.accept`, `State.when`), so nothing but `WRB 7` has another answer than a next state. -/
theorem onlyTheReservedEncodingIsRefused : Obligations.OnlyTheReservedEncodingIsRefused := by
  intro i s
  cases i with
  | wrb7 val => exact .inr ⟨⟨val, rfl⟩, reservedWrb7IsRefused val s⟩
  | nop | wrb | run | fatal | loadframe => exact .inl ⟨_, rfl⟩
  | conv v => exact .inl ⟨_, exec_conv v s⟩
  | stop | stepf | stepr | hold | phase => exact .inl ⟨_, rfl⟩
  | connect => exact .inl (exec_wire_next (.inl rfl) s)
  | motor payload => exact .inl (exec_wire_next (.inr (.inl ⟨payload, rfl⟩)) s)
  | otherWire b => exact .inl (exec_wire_next (.inr (.inr ⟨b, rfl⟩)) s)

end Sys2Proof.Machine
end

section
/-! The reset statement (spec/70_reset_and_hazards.md R230, R231): `rst` puts the block at the values of R32's table. -/

namespace Sys2Proof.Machine

/-- Settles O14: with `rst` the step is the reset of the block, and the block after reset holds the values of the
table (O16). -/
theorem resetOverridesEverything : Obligations.ResetOverridesEverything := by
  intro s hr
  obtain ⟨hfiles, hflag, hpos⟩ := resetStateHasTheValuesOfTheTable
  refine ⟨s.takeInput.resetBlock, step_of_rst hr, hfiles, hflag, hpos, ?_⟩
  simp only [State.resetBlock_trace, State.takeInput_trace]

end Sys2Proof.Machine
end
